-- ==== Sys2Proof/Word.lean ====
section
/-! DEFINITION. The word types of the engine and the reductions of 00_scope.md R8: every value is an
unsigned integer, computed exactly and then narrowed to the width it is stored in. -/

namespace Sys2Proof

/-- An 8-bit value: a general register, a timer, a memory cell, an NN immediate (R8, R71). -/
abbrev Byte := BitVec 8

/-- A 16-bit value: PC, I, a stack slot, an instruction word (R8, R70). -/
abbrev Word := BitVec 16

/-- A 12-bit immediate NNN (R71). -/
abbrev Imm12 := BitVec 12

/-- A 4-bit field that is no register index: N, or an `x` field that is not examined (R71, R76). -/
abbrev Nibble := BitVec 4

/-- A register index 0-15 naming V0-VF (R21, R72). -/
abbrev RegIdx := Fin 16

/-- `trunc8(v) = v mod 256` (R8). -/
def trunc8 (v : Nat) : Byte := BitVec.ofNat 8 v

/-- `trunc16(v) = v mod 65536` (R8). -/
def trunc16 (v : Nat) : Word := BitVec.ofNat 16 v

@[simp] theorem trunc8_toNat (v : Nat) : (trunc8 v).toNat = v % 256 := by
  simp [trunc8]

@[simp] theorem trunc16_toNat (v : Nat) : (trunc16 v).toNat = v % 65536 := by
  simp [trunc16]

end Sys2Proof
end

