-- ==== Sys2Proof/Config.lean ====
section
/-! DEFINITION. What is fixed for this hardware (00_scope.md R5) and the one free value the spec leaves
open: the random draw. -/

namespace Sys2Proof

/-- `MEM_SIZE`: 4096 bytes, addresses 0x000-0xFFF (R5, R50). -/
def Config.memSize : Nat := 0x1000

/-- `PROG_BASE` = 0x200, where `load` copies the ROM (R5, R51). -/
def Config.progBase : Nat := 0x200

/-- `RESET_PC` = 0x200 (R5, R25). -/
def Config.resetPc : Word := 0x200

/-- `MAX_ROM` = 4096 - 512 = 3584 bytes (R5, R292). -/
def Config.maxRom : Nat := 3584

/-- The last address an instruction word can be fetched from: 0xFFE (R92). -/
def Config.lastFetch : Nat := 0xFFE

/-- `FONT`: the 80 bytes of the 16 glyphs, five bytes each, glyph 0 first (20_memory.md R57).
PRESUMED (log entry 4): the document's table is lost; R57 supplies the conventional CHIP-8 font as the default
of this parameter, marked there as general knowledge (D10, G1). -/
def Config.font : List Byte :=
  [0xF0, 0x90, 0x90, 0x90, 0xF0,   0x20, 0x60, 0x20, 0x20, 0x70,
   0xF0, 0x10, 0xF0, 0x80, 0xF0,   0xF0, 0x10, 0xF0, 0x10, 0xF0] ++
  [0x90, 0x90, 0xF0, 0x10, 0x10,   0xF0, 0x80, 0xF0, 0x10, 0xF0,
   0xF0, 0x80, 0xF0, 0x90, 0xF0,   0xF0, 0x10, 0x20, 0x40, 0x40] ++
  [0xF0, 0x90, 0xF0, 0x90, 0xF0,   0xF0, 0x90, 0xF0, 0x10, 0xF0,
   0xF0, 0x90, 0xF0, 0x90, 0x90,   0xE0, 0x90, 0xE0, 0x90, 0xE0] ++
  [0xF0, 0x80, 0x80, 0x80, 0xF0,   0xE0, 0x90, 0x90, 0x90, 0xE0,
   0xF0, 0x80, 0xF0, 0x80, 0xF0,   0xF0, 0x80, 0xF0, 0x80, 0x80]

/-- The step's free input `rand` (R12, R99, D13), one value for each draw. A free value (log entry 3): it has
no body, so nothing can be proved of the value of a draw. -/
opaque Config.rand : Nat → Byte

end Sys2Proof
end

