-- ==== Sys2Proof/Syntax.lean ====
section
/-! DEFINITION. The instruction set: one constructor for each of the 38 rows of spec/opcode_table.json, in the
table's order (30_encoding.md R79). A field the instruction does not examine (R76) is kept as written, so that an
instruction and its word determine each other. -/

namespace Sys2Proof

/-- One constructor per row of the opcode map R79; the comment gives the opcode pattern and the rule. -/
inductive Instr where
  | cls     (x : Nibble)                          -- 0XE0  R110, x not examined
  | ret     (x : Nibble)                          -- 0XEE  R111, x not examined
  | sys     (nnn : Imm12)                         -- 0NNN  R112, nnn not used
  | jp      (nnn : Imm12)                         -- 1NNN  R113
  | call    (nnn : Imm12)                         -- 2NNN  R114
  | seImm   (x : RegIdx) (nn : Byte)              -- 3XNN  R130
  | sneImm  (x : RegIdx) (nn : Byte)              -- 4XNN  R131
  | seReg   (x y : RegIdx) (n : Nibble)           -- 5XYN  R132, n not examined
  | ldImm   (x : RegIdx) (nn : Byte)              -- 6XNN  R133
  | addImm  (x : RegIdx) (nn : Byte)              -- 7XNN  R134
  | ldReg   (x y : RegIdx)                        -- 8XY0  R152
  | or      (x y : RegIdx)                        -- 8XY1  R153
  | and     (x y : RegIdx)                        -- 8XY2  R154
  | xor     (x y : RegIdx)                        -- 8XY3  R155
  | addReg  (x y : RegIdx)                        -- 8XY4  R156
  | sub     (x y : RegIdx)                        -- 8XY5  R157
  | shr     (x y : RegIdx)                        -- 8XY6  R158, y not used
  | subn    (x y : RegIdx)                        -- 8XY7  R159
  | shl     (x y : RegIdx)                        -- 8XYE  R160, y not used
  | nop8    (x y : RegIdx) (n : Nibble)           -- 8XYN  R161, n one of 8-D, F
  | sneReg  (x y : RegIdx) (n : Nibble)           -- 9XYN  R180, n not examined
  | ldI     (nnn : Imm12)                         -- ANNN  R181
  | jpV0    (nnn : Imm12)                         -- BNNN  R182
  | rnd     (x : RegIdx) (nn : Byte)              -- CXNN  R183
  | drw     (x y : RegIdx) (n : Nibble)           -- DXYN  R200
  | skp     (x : RegIdx)                          -- EX9E  R220
  | sknp    (x : RegIdx)                          -- EXA1  R221
  | nopE    (x : RegIdx) (nn : Byte)              -- EXNN  R223, nn not 9E or A1
  | ldVxDt  (x : RegIdx)                          -- FX07  R230
  | ldVxK   (x : RegIdx)                          -- FX0A  R231
  | ldDtVx  (x : RegIdx)                          -- FX15  R232
  | ldStVx  (x : RegIdx)                          -- FX18  R233
  | addIVx  (x : RegIdx)                          -- FX1E  R234
  | ldFVx   (x : RegIdx)                          -- FX29  R235
  | ldBVx   (x : RegIdx)                          -- FX33  R236
  | ldMemVx (x : RegIdx)                          -- FX55  R237
  | ldVxMem (x : RegIdx)                          -- FX65  R238
  | nopF    (x : RegIdx) (nn : Byte)              -- FXNN  R239, nn none of the nine
  deriving DecidableEq, Repr

end Sys2Proof
end

