-- ==== Sys2Proof/WellFormed.lean ====
section
/-! DEFINITION. Which instruction terms stand for a word. The field widths are in the types; what is left to
check is that a catch-all row (priority 2 in R79) does not carry a sub-opcode that selects another row (R74). -/

namespace Sys2Proof

/-- The low bytes that select a family-0 instruction of their own: E0 and EE (R74(a)). -/
def family0Selectors : List Byte := [0xE0, 0xEE]

/-- The low digits that select a family-8 instruction of their own: 0-7 and E (R74(d)). -/
def family8Selectors : List Nibble := [0x0, 0x1, 0x2, 0x3, 0x4, 0x5, 0x6, 0x7, 0xE]

/-- The low bytes that select a family-E instruction of their own: 9E and A1 (R74(b)). -/
def familyESelectors : List Byte := [0x9E, 0xA1]

/-- The low bytes that select a family-F instruction of their own (R74(c)). -/
def familyFSelectors : List Byte := [0x07, 0x0A, 0x15, 0x18, 0x1E, 0x29, 0x33, 0x55, 0x65]

/-- An instruction is well formed when its own word decodes to it: a catch-all row carries no sub-opcode of
another row (R74, R77). -/
def Instr.wellFormed : Instr → Bool
  | .sys nnn    => !(family0Selectors.contains (nnn.extractLsb' 0 8))
  | .nop8 _ _ n => !(family8Selectors.contains n)
  | .nopE _ nn  => !(familyESelectors.contains nn)
  | .nopF _ nn  => !(familyFSelectors.contains nn)
  | .cls _ | .ret _ | .jp _ | .call _ | .seImm _ _ | .sneImm _ _ | .seReg _ _ _ | .ldImm _ _ | .addImm _ _ => true
  | .ldReg _ _ | .or _ _ | .and _ _ | .xor _ _ | .addReg _ _ | .sub _ _ | .shr _ _ | .subn _ _ | .shl _ _ => true
  | .sneReg _ _ _ | .ldI _ | .jpV0 _ | .rnd _ _ | .drw _ _ _ | .skp _ | .sknp _ => true
  | .ldVxDt _ | .ldVxK _ | .ldDtVx _ | .ldStVx _ | .addIVx _ | .ldFVx _ | .ldBVx _ | .ldMemVx _ | .ldVxMem _ => true

end Sys2Proof
end

