-- ==== Sys2Proof/Decode.lean ====
section
/-! DEFINITION. The decoder (30_encoding.md R70 to R81), total on the 65536 words, and after it the encoder,
written from the same table R79. -/

namespace Sys2Proof

/-! ## Fields of an instruction word (R71) -/

/-- `op` = w[15:12]. -/
def opField (w : Word) : Nibble := w.extractLsb' 12 4

/-- The `x` field w[11:8] as four bits, for the rows that do not examine it. -/
def xBits (w : Word) : Nibble := w.extractLsb' 8 4

/-- `x` = w[11:8] as a register index. -/
def xField (w : Word) : RegIdx := ⟨(w.extractLsb' 8 4).toNat, (w.extractLsb' 8 4).isLt⟩

/-- `y` = w[7:4] as a register index. -/
def yField (w : Word) : RegIdx := ⟨(w.extractLsb' 4 4).toNat, (w.extractLsb' 4 4).isLt⟩

/-- `n3` = w[11:0] (NNN). -/
def nnnField (w : Word) : Imm12 := w.extractLsb' 0 12

/-- `n2` = w[7:0] (NN). -/
def nnField (w : Word) : Byte := w.extractLsb' 0 8

/-- `n1` = w[3:0] (N). -/
def nField (w : Word) : Nibble := w.extractLsb' 0 4

/-! ## The two-level decoder (R73, R74) -/

/-- Family 0 dispatches on `n2` (R74(a)); DESIGN CHOICE of the spec, D8, log entry 6. -/
def decodeFamily0 (w : Word) : Instr :=
  match (nnField w).toNat with
  | 0xE0 => .cls (xBits w)
  | 0xEE => .ret (xBits w)
  | _    => .sys (nnnField w)

/-- Family 8 dispatches on `n1` (R74(d)). -/
def decodeFamily8 (w : Word) : Instr :=
  match (nField w).toNat with
  | 0x0 => .ldReg (xField w) (yField w)
  | 0x1 => .or (xField w) (yField w)
  | 0x2 => .and (xField w) (yField w)
  | 0x3 => .xor (xField w) (yField w)
  | 0x4 => .addReg (xField w) (yField w)
  | 0x5 => .sub (xField w) (yField w)
  | 0x6 => .shr (xField w) (yField w)
  | 0x7 => .subn (xField w) (yField w)
  | 0xE => .shl (xField w) (yField w)
  | _   => .nop8 (xField w) (yField w) (nField w)

/-- Family E dispatches on `n2` (R74(b)); DESIGN CHOICE of the spec, D8, log entry 6. -/
def decodeFamilyE (w : Word) : Instr :=
  match (nnField w).toNat with
  | 0x9E => .skp (xField w)
  | 0xA1 => .sknp (xField w)
  | _    => .nopE (xField w) (nnField w)

/-- Family F dispatches on `n2` (R74(c)). -/
def decodeFamilyF (w : Word) : Instr :=
  match (nnField w).toNat with
  | 0x07 => .ldVxDt (xField w)
  | 0x0A => .ldVxK (xField w)
  | 0x15 => .ldDtVx (xField w)
  | 0x18 => .ldStVx (xField w)
  | 0x1E => .addIVx (xField w)
  | 0x29 => .ldFVx (xField w)
  | 0x33 => .ldBVx (xField w)
  | 0x55 => .ldMemVx (xField w)
  | 0x65 => .ldVxMem (xField w)
  | _    => .nopF (xField w) (nnField w)

/-- The instruction a word stands for (R73, R75, R78): total, and a function of the word alone (R81). `op` is a
4-bit value, so the last arm is family F exactly. -/
def decodeWord (w : Word) : Instr :=
  match (opField w).toNat with
  | 0x0 => decodeFamily0 w
  | 0x1 => .jp (nnnField w)
  | 0x2 => .call (nnnField w)
  | 0x3 => .seImm (xField w) (nnField w)
  | 0x4 => .sneImm (xField w) (nnField w)
  | 0x5 => .seReg (xField w) (yField w) (nField w)
  | 0x6 => .ldImm (xField w) (nnField w)
  | 0x7 => .addImm (xField w) (nnField w)
  | 0x8 => decodeFamily8 w
  | 0x9 => .sneReg (xField w) (yField w) (nField w)
  | 0xA => .ldI (nnnField w)
  | 0xB => .jpV0 (nnnField w)
  | 0xC => .rnd (xField w) (nnField w)
  | 0xD => .drw (xField w) (yField w) (nField w)
  | 0xE => decodeFamilyE w
  | _   => decodeFamilyF w

/-! ## Bytes -/

/-- The big-endian instruction word of two bytes, the one at the lower address first (R53, R93). -/
def wordOfBytes (hi lo : Byte) : Word := trunc16 (hi.toNat * 256 + lo.toNat)

/-- The two bytes of a word in memory order, high byte first (R53, R84). -/
def bytesOfWord (w : Word) : List Byte := [trunc8 (w.toNat / 256), trunc8 w.toNat]

/-- Why a byte sequence is no instruction. No word is illegal (R77), so only one reason exists. -/
inductive DecodeError where
  /-- fewer than the two bytes every instruction takes (R70) -/
  | truncated
  deriving DecidableEq, Repr

/-- Decode the first instruction of a byte sequence: it always takes two bytes (R70, R80). Answers the
instruction and the bytes after it, and rejects a shorter sequence by name. -/
def decode : List Byte → Except DecodeError (Instr × List Byte)
  | hi :: lo :: rest => .ok (decodeWord (wordOfBytes hi lo), rest)
  | [_] => .error .truncated
  | []  => .error .truncated

/-! ## The encoder -/

/-- A word from op, a register index x, and NN. -/
def packXNN (op : Nibble) (x : RegIdx) (nn : Byte) : Word :=
  trunc16 (op.toNat * 4096 + x.val * 256 + nn.toNat)

/-- A word from op, register indices x and y, and N. -/
def packXYN (op : Nibble) (x y : RegIdx) (n : Nibble) : Word :=
  trunc16 (op.toNat * 4096 + x.val * 256 + y.val * 16 + n.toNat)

/-- A word from op and NNN. -/
def packNNN (op : Nibble) (nnn : Imm12) : Word :=
  trunc16 (op.toNat * 4096 + nnn.toNat)

/-- The word of an instruction, from the match column and the field positions of R71 and R79. -/
def encode : Instr → Word
  | .cls x       => trunc16 (0x00E0 + x.toNat * 256)
  | .ret x       => trunc16 (0x00EE + x.toNat * 256)
  | .sys nnn     => packNNN 0x0 nnn
  | .jp nnn      => packNNN 0x1 nnn
  | .call nnn    => packNNN 0x2 nnn
  | .seImm x nn  => packXNN 0x3 x nn
  | .sneImm x nn => packXNN 0x4 x nn
  | .seReg x y n => packXYN 0x5 x y n
  | .ldImm x nn  => packXNN 0x6 x nn
  | .addImm x nn => packXNN 0x7 x nn
  | .ldReg x y   => packXYN 0x8 x y 0x0
  | .or x y      => packXYN 0x8 x y 0x1
  | .and x y     => packXYN 0x8 x y 0x2
  | .xor x y     => packXYN 0x8 x y 0x3
  | .addReg x y  => packXYN 0x8 x y 0x4
  | .sub x y     => packXYN 0x8 x y 0x5
  | .shr x y     => packXYN 0x8 x y 0x6
  | .subn x y    => packXYN 0x8 x y 0x7
  | .shl x y     => packXYN 0x8 x y 0xE
  | .nop8 x y n  => packXYN 0x8 x y n
  | .sneReg x y n => packXYN 0x9 x y n
  | .ldI nnn     => packNNN 0xA nnn
  | .jpV0 nnn    => packNNN 0xB nnn
  | .rnd x nn    => packXNN 0xC x nn
  | .drw x y n   => packXYN 0xD x y n
  | .skp x       => packXNN 0xE x 0x9E
  | .sknp x      => packXNN 0xE x 0xA1
  | .nopE x nn   => packXNN 0xE x nn
  | .ldVxDt x    => packXNN 0xF x 0x07
  | .ldVxK x     => packXNN 0xF x 0x0A
  | .ldDtVx x    => packXNN 0xF x 0x15
  | .ldStVx x    => packXNN 0xF x 0x18
  | .addIVx x    => packXNN 0xF x 0x1E
  | .ldFVx x     => packXNN 0xF x 0x29
  | .ldBVx x     => packXNN 0xF x 0x33
  | .ldMemVx x   => packXNN 0xF x 0x55
  | .ldVxMem x   => packXNN 0xF x 0x65
  | .nopF x nn   => packXNN 0xF x nn

/-- The instruction this decoder reads from the bits spec/opcode_table.json numbers: the one word of an
instruction is the number `w` itself, and its bytes are stored high byte first (R53). Bits above `nbits` are 0. -/
def decodeTableWord (nbits w : Nat) : Option Instr :=
  match decode (bytesOfWord (trunc16 (w % 2 ^ nbits))) with
  | .ok (i, _) => some i
  | .error _   => none

/-! ## The opcode map as a table (R79) -/

/-- A row of the opcode map: its mnemonic, and the mask and match that select it. -/
structure OpcodeRow where
  mnemonic : String
  mask : Word
  matchBits : Word
  deriving DecidableEq, Repr

/-- The priority-1 rows of R79, in the table's order. -/
def opcodeRows1 : List OpcodeRow :=
  [⟨"CLS", 0xF0FF, 0x00E0⟩, ⟨"RET", 0xF0FF, 0x00EE⟩, ⟨"JP", 0xF000, 0x1000⟩, ⟨"CALL", 0xF000, 0x2000⟩,
   ⟨"SE_IMM", 0xF000, 0x3000⟩, ⟨"SNE_IMM", 0xF000, 0x4000⟩, ⟨"SE_REG", 0xF000, 0x5000⟩,
   ⟨"LD_IMM", 0xF000, 0x6000⟩, ⟨"ADD_IMM", 0xF000, 0x7000⟩] ++
  [⟨"LD_REG", 0xF00F, 0x8000⟩, ⟨"OR", 0xF00F, 0x8001⟩, ⟨"AND", 0xF00F, 0x8002⟩, ⟨"XOR", 0xF00F, 0x8003⟩,
   ⟨"ADD_REG", 0xF00F, 0x8004⟩, ⟨"SUB", 0xF00F, 0x8005⟩, ⟨"SHR", 0xF00F, 0x8006⟩, ⟨"SUBN", 0xF00F, 0x8007⟩,
   ⟨"SHL", 0xF00F, 0x800E⟩] ++
  [⟨"SNE_REG", 0xF000, 0x9000⟩, ⟨"LD_I", 0xF000, 0xA000⟩, ⟨"JP_V0", 0xF000, 0xB000⟩, ⟨"RND", 0xF000, 0xC000⟩,
   ⟨"DRW", 0xF000, 0xD000⟩, ⟨"SKP", 0xF0FF, 0xE09E⟩, ⟨"SKNP", 0xF0FF, 0xE0A1⟩] ++
  [⟨"LD_VX_DT", 0xF0FF, 0xF007⟩, ⟨"LD_VX_K", 0xF0FF, 0xF00A⟩, ⟨"LD_DT_VX", 0xF0FF, 0xF015⟩,
   ⟨"LD_ST_VX", 0xF0FF, 0xF018⟩, ⟨"ADD_I_VX", 0xF0FF, 0xF01E⟩, ⟨"LD_F_VX", 0xF0FF, 0xF029⟩,
   ⟨"LD_B_VX", 0xF0FF, 0xF033⟩, ⟨"LD_MEM_VX", 0xF0FF, 0xF055⟩, ⟨"LD_VX_MEM", 0xF0FF, 0xF065⟩]

/-- The priority-2 rows of R79: the catch-alls of families 0, 8, E and F. -/
def opcodeRows2 : List OpcodeRow :=
  [⟨"SYS", 0xF000, 0x0000⟩, ⟨"NOP_8", 0xF000, 0x8000⟩, ⟨"NOP_E", 0xF000, 0xE000⟩, ⟨"NOP_F", 0xF000, 0xF000⟩]

/-- A word selects a row when `w & mask = match` (R79). -/
def OpcodeRow.selects (r : OpcodeRow) (w : Word) : Bool := w &&& r.mask == r.matchBits

/-- The row a word selects: priority-1 rows before priority-2 rows (R79). -/
def selectRow (w : Word) : Option OpcodeRow := (opcodeRows1 ++ opcodeRows2).find? (·.selects w)

/-- The table's mnemonic of an instruction (R79). -/
def Instr.mnemonic : Instr → String
  | .cls _ => "CLS"           | .ret _ => "RET"           | .sys _ => "SYS"
  | .jp _ => "JP"             | .call _ => "CALL"
  | .seImm _ _ => "SE_IMM"    | .sneImm _ _ => "SNE_IMM"  | .seReg _ _ _ => "SE_REG"
  | .ldImm _ _ => "LD_IMM"    | .addImm _ _ => "ADD_IMM"
  | .ldReg _ _ => "LD_REG"    | .or _ _ => "OR"           | .and _ _ => "AND"
  | .xor _ _ => "XOR"         | .addReg _ _ => "ADD_REG"  | .sub _ _ => "SUB"
  | .shr _ _ => "SHR"         | .subn _ _ => "SUBN"       | .shl _ _ => "SHL"
  | .nop8 _ _ _ => "NOP_8"    | .sneReg _ _ _ => "SNE_REG"
  | .ldI _ => "LD_I"          | .jpV0 _ => "JP_V0"        | .rnd _ _ => "RND"
  | .drw _ _ _ => "DRW"
  | .skp _ => "SKP"           | .sknp _ => "SKNP"         | .nopE _ _ => "NOP_E"
  | .ldVxDt _ => "LD_VX_DT"   | .ldVxK _ => "LD_VX_K"     | .ldDtVx _ => "LD_DT_VX"
  | .ldStVx _ => "LD_ST_VX"   | .addIVx _ => "ADD_I_VX"   | .ldFVx _ => "LD_F_VX"
  | .ldBVx _ => "LD_B_VX"     | .ldMemVx _ => "LD_MEM_VX" | .ldVxMem _ => "LD_VX_MEM"
  | .nopF _ _ => "NOP_F"

end Sys2Proof
end

