-- ==== Sys2Proof/Machine/State.lean ====
section
/-! DEFINITION. The state of the engine, exactly the record of 10_state.md R20, with two fields of the model's own
(the tone output of the last step and the index of the next random draw), and the state after reset. -/

namespace Sys2Proof.Machine

/-- The five fault kinds of 60_exceptions.md R261. A raised fault is a NEXT state: `raise` sets the fault record
and the machine stays in that state until reset (R11, R35, R91; log entry 1). So no meaning and no step answers
`Host.Outcome.fault`; this type is the `kind` of the fault record. All five are safe: where the reference program
would go on, the faulted machine does nothing, as the spec decides (D2, D4, D5, D6, D7). -/
inductive Fault where
  /-- code 1: raised by the fetch of a step whose PC is above 0xFFE (R92); safe -/
  | pcOutOfRange
  /-- code 2: raised by DXYN, FX33, FX55 and FX65 on a data access at an address of 0x1000 or more (R54); safe -/
  | memoryOutOfRange
  /-- code 3: raised by 2NNN with SP = 15 (R114); safe -/
  | stackOverflow
  /-- code 4: raised by 00EE with SP = 0 (R111); safe -/
  | stackUnderflow
  /-- code 5: raised by EX9E and EXA1 with V[X] above 15 (R222); safe -/
  | keyIndexOutOfRange
  deriving DecidableEq, Repr

/-- Why the model gives an instruction no meaning. -/
inductive Refusal where
  /-- an arm of `exec` without a meaning; no arm of this model answers it; safe -/
  | notModelled (mnemonic : String)
  deriving DecidableEq, Repr

/-- The fault record's triple (kind, info, pc) (R35, R262). -/
structure FaultRecord where
  kind : Fault
  /-- the info value of R261 -/
  info : Nat
  /-- the address of the instruction whose step raised the fault -/
  pc : Word
  deriving DecidableEq, Repr

/-- Memory as a list of (address, byte) pairs in canonical form: see `Memory.wf` in Machine/Memory.lean. -/
abbrev Memory := List Host.Cell

/-- The framebuffer as 32 rows of 64 cells: cell (x, y) is `fb[y][x]`, true = 1 (R31). -/
abbrev Framebuffer := Vector (Vector Bool 64) 32

/-- The state vector of R20. -/
structure State where
  /-- the 4096 bytes of memory (R50) -/
  mem : Memory
  /-- V0-VF (R21) -/
  v : Vector Byte 16
  /-- the address register I (R24) -/
  i : Word
  /-- the program counter (R25) -/
  pc : Word
  /-- the 16 stack slots (R27) -/
  stack : Vector Word 16
  /-- the stack pointer, an integer 0-15 (R28) -/
  sp : Fin 16
  /-- the delay timer DT (R29) -/
  dt : Byte
  /-- the sound timer ST (R30) -/
  st : Byte
  /-- the framebuffer (R31) -/
  fb : Framebuffer
  /-- the keypad, true = pressed (R32) -/
  keypad : Vector Bool 16
  /-- the draw-flag (R33) -/
  drawFlag : Bool
  /-- the key-wait latch (R34) -/
  keyWait : Bool
  /-- the fault record (R35) -/
  fault : Option FaultRecord
  /-- THE MODEL'S OWN: the tone output of the last step (R37, R97; log entry 2) -/
  tone : Bool
  /-- THE MODEL'S OWN: the index of the next random draw (R12, R99; log entry 3) -/
  draws : Nat
  deriving DecidableEq, Repr

/-- What every meaning and every step answers. -/
abbrev Result := Host.Outcome State Fault Refusal

/-- The state `reset()` leaves (R20, R290). Memory lists nothing: an unlisted address reads as its reset
contents, the font or 0 (`Memory.unlisted`). `tone` and `draws` are the model's own, DESIGN CHOICE (log entries
2 and 3). -/
def State.reset : State where
  mem := []
  v := Vector.replicate 16 0
  i := 0
  pc := Config.resetPc
  stack := Vector.replicate 16 0
  sp := 0
  dt := 0
  st := 0
  fb := Vector.replicate 32 (Vector.replicate 64 false)
  keypad := Vector.replicate 16 false
  drawFlag := false
  keyWait := false
  fault := none
  tone := false
  draws := 0

end Sys2Proof.Machine
end

