-- ==== Sys2Proof/Machine/Memory.lean ====
section
/-! DEFINITION. The 4096-byte memory (20_memory.md R50): reading and writing one cell of the canonical list, the
bounded accesses `MemRead` and `MemWrite` of 00_scope.md R10, and transfers of consecutive bytes (R52, R55). -/

namespace Sys2Proof.Machine

/-- What an address that the memory does not list reads as: its reset contents, the font at 0x000-0x04F and 0
elsewhere (R51, R290, R291). -/
def Memory.unlisted (a : Nat) : Byte := Config.font.getD a 0

/-- The byte of the cell at address `a` (R50, R59). -/
def Memory.read : Memory → Nat → Byte
  | [], a => Memory.unlisted a
  | (b, x) :: m, a => if a = b then x else Memory.read m a

/-- List `a` with the byte `v`, or drop its entry when `v` is what an unlisted `a` reads as. -/
def Memory.consCell (a : Nat) (v : Byte) (m : Memory) : Memory :=
  if v = Memory.unlisted a then m else (a, v) :: m

/-- The memory with the cell at `a` holding `v` and every other cell as before (R59). -/
def Memory.write : Memory → Nat → Byte → Memory
  | [], a, v => Memory.consCell a v []
  | (b, x) :: m, a, v =>
    if a < b then Memory.consCell a v ((b, x) :: m)
    else if a = b then Memory.consCell a v m
    else (b, x) :: Memory.write m a v

/-- The canonical form from address `lo` on: addresses rising from at least `lo` and below 0x1000, and no entry
equal to what its address reads as unlisted. -/
def Memory.wfFrom (lo : Nat) : Memory → Bool
  | [] => true
  | (a, v) :: m => decide (lo ≤ a) && decide (a < Config.memSize) && (v != Memory.unlisted a) && Memory.wfFrom (a + 1) m

/-- The canonical form: equal memories are equal lists. -/
def Memory.wf (m : Memory) : Bool := Memory.wfFrom 0 m

/-- `MemRead(a, 1)`: the byte at `a`, or the address itself when `a ≥ 0x1000`, for MemoryOutOfRange (R10, R54). -/
def Memory.load (m : Memory) (a : Nat) : Except Nat Byte :=
  if a < Config.memSize then .ok (m.read a) else .error a

/-- `MemWrite(a, 1, v)`, or the address itself when `a ≥ 0x1000`, for MemoryOutOfRange (R10, R54). -/
def Memory.store (m : Memory) (a : Nat) (v : Byte) : Except Nat Memory :=
  if a < Config.memSize then .ok (m.write a v) else .error a

/-- Read `n` bytes at `a`, `a + 1`, …, the addresses not reduced (R55); the first address out of range otherwise. -/
def Memory.loadBlock (m : Memory) : Nat → Nat → Except Nat (List Byte)
  | _, 0 => .ok []
  | a, n + 1 =>
    match m.load a with
    | .error e => .error e
    | .ok b =>
      match Memory.loadBlock m (a + 1) n with
      | .error e => .error e
      | .ok bs => .ok (b :: bs)

/-- Write bytes at `a`, `a + 1`, …, the addresses not reduced (R55); the first address out of range otherwise. -/
def Memory.storeBlock : Memory → Nat → List Byte → Except Nat Memory
  | m, _, [] => .ok m
  | m, a, b :: bs =>
    match m.store a b with
    | .error e => .error e
    | .ok m' => Memory.storeBlock m' (a + 1) bs

/-- Write bytes at `a`, `a + 1`, … of a range that lies in memory: what `load` does with a ROM (R292). -/
def Memory.copyIn : Memory → Nat → List Byte → Memory
  | m, _, [] => m
  | m, a, b :: bs => Memory.copyIn (m.write a b) (a + 1) bs

end Sys2Proof.Machine
end

