-- ==== Sys2Proof/Machine/Operands.lean ====
section
/-! DEFINITION. The operand forms of 30_encoding.md R72 and the values formed from them: registers, immediates,
12-bit addresses, key indices, decimal digits and register blocks. -/

namespace Sys2Proof.Machine

/-- `V[x]` (R9, R21). -/
def State.getV (s : State) (x : RegIdx) : Byte := s.v[x.val]

/-- `V[x] <- b` (R9, R21). -/
def State.setV (s : State) (x : RegIdx) (b : Byte) : State := { s with v := s.v.set x.val b }

/-- NNN as an absolute 16-bit address, zero-extended (R72). -/
def addrOf (nnn : Imm12) : Word := trunc16 nnn.toNat

/-- The target of BNNN: `trunc16(NNN + V[0])` (R182). -/
def indexedTarget (nnn : Imm12) (v0 : Byte) : Word := trunc16 (nnn.toNat + v0.toNat)

/-- The key a register names: none when the value is above 15 (R222). -/
def keyOf (b : Byte) : Option (Fin 16) := if h : b.toNat < 16 then some ⟨b.toNat, h⟩ else none

/-- The least pressed key, if any (R231). -/
def lowestPressed (keypad : Vector Bool 16) : Option (Fin 16) := (List.finRange 16).find? fun k => keypad[k.val]

/-- The three decimal digits of a byte, hundreds first (R236). -/
def bcdDigits (b : Byte) : List Byte := [trunc8 (b.toNat / 100), trunc8 (b.toNat / 10 % 10), trunc8 (b.toNat % 10)]

/-- The address of the glyph of a register's value: `V[X] * 5`, the whole register (R235). -/
def glyphAddr (b : Byte) : Word := trunc16 (b.toNat * 5)

/-- `V[0]`, …, `V[x]` (R237). -/
def State.regsUpTo (s : State) (x : RegIdx) : List Byte := s.v.toList.take (x.val + 1)

/-- Write bytes to `V[k]`, `V[k + 1]`, … (R238). -/
def fillRegs (v : Vector Byte 16) : Nat → List Byte → Vector Byte 16
  | _, [] => v
  | k, b :: bs => fillRegs (v.setIfInBounds k b) (k + 1) bs

/-- `trunc16(I + X + 1)`: I after a block transfer (R237, R238). -/
def State.iAfterBlock (s : State) (x : RegIdx) : Word := trunc16 (s.i.toNat + x.val + 1)

end Sys2Proof.Machine
end

