-- ==== Sys2Proof/Machine/Flags.lean ====
section
/-! DEFINITION. The flag computations that write VF (10_state.md R22, 43_family8_alu.md R150 to R160). Results and
flags are functions of the operands as bound before any write (R150). -/

namespace Sys2Proof.Machine

/-- A flag as VF holds it: 1 or 0 (R22). -/
def flagByte (f : Bool) : Byte := if f then 1 else 0

/-- Carry out of bit 7, from the pre-truncation sum: `a + b > 255` (R156). -/
def carryFlag (a b : Byte) : Bool := decide (a.toNat + b.toNat > 255)

/-- No borrow in `a - b`: `a >= b` (R157; R159 with the operands exchanged). -/
def noBorrowFlag (a b : Byte) : Bool := decide (a.toNat ≥ b.toNat)

/-- The bit a right shift moves out: `a & 1` (R158). -/
def shiftOutRight (a : Byte) : Bool := decide (a.toNat % 2 = 1)

/-- The bit a left shift moves out: `(a >> 7) & 1` (R160). -/
def shiftOutLeft (a : Byte) : Bool := decide (a.toNat / 128 % 2 = 1)

/-- `trunc8(a + b)` (R134, R156). -/
def sum8 (a b : Byte) : Byte := trunc8 (a.toNat + b.toNat)

/-- `trunc8(a + 256 - b)` (R157, R159). -/
def diff8 (a b : Byte) : Byte := trunc8 (a.toNat + 256 - b.toNat)

/-- `a >> 1` (R158). -/
def half8 (a : Byte) : Byte := trunc8 (a.toNat / 2)

/-- `trunc8(a << 1)` (R160). -/
def double8 (a : Byte) : Byte := trunc8 (a.toNat * 2)

/-- The result first, the flag last: `V[X] <- r; V[15] <- f`, so that with X = F VF ends as the flag (R151; the
order is the spec's own decision D9, log entry 7). -/
def State.setResultAndFlag (s : State) (x : RegIdx) (r : Byte) (f : Bool) : State :=
  (s.setV x r).setV 15 (flagByte f)

end Sys2Proof.Machine
end

