-- ==== Sys2Proof/Machine/Ops.lean ====
section
/-! DEFINITION. The operations the meanings share: raising a fault (the one exception entry of this hardware), the
skip, the call stack, and the parts of a step around an instruction (fetch, advance, timers). -/

namespace Sys2Proof.Machine

/-! ## Faults: R11, R35, R260 to R266 -/

/-- `raise <kind>(info)` in the step of the instruction at `a`, applied to the state the step began with but for PC:
the fault record is set, PC is the instruction's own address again, nothing else is changed, and the tone output of
the step is false (R11, R35, R262, R263, R98; log entry 1). There is no handler and no return (R260, R266). -/
def State.raiseAt (s : State) (a : Word) (kind : Fault) (info : Nat) : State :=
  { s with pc := a, fault := some ⟨kind, info, a⟩, tone := false }

/-- `raise` inside an instruction, whose own address is PC - 2 since the fetch has advanced PC (R94). The state must
be the one the instruction started with, so that every write of the step is discarded (R11). -/
def State.raise (s : State) (kind : Fault) (info : Nat) : State := s.raiseAt (s.pc - 2) kind info

/-- Whether the machine is faulted (R35). -/
def State.faulted (s : State) : Bool := s.fault.isSome

/-! ## Program counter and stack -/

/-- A skip adds 2 more to PC when its condition holds (R130 to R132, R180, R220, R221). -/
def State.skipIf (s : State) (c : Bool) : State := if c then { s with pc := s.pc + 2 } else s

/-- `SP <- SP + 1; stack[SP] <- PC` for SP below 15 (R114). -/
def State.pushPc (s : State) : State :=
  { s with sp := s.sp + 1, stack := s.stack.set (s.sp + 1).val s.pc }

/-- `PC <- stack[SP]; SP <- SP - 1` for SP above 0; the slot is not cleared (R111). -/
def State.popPc (s : State) : State := { s with pc := s.stack[s.sp.val], sp := s.sp - 1 }

/-! ## The step around the instruction: R91 to R98 -/

/-- Whether the fetch would reach beyond memory: PC above 0xFFE (R92). -/
def State.fetchOutOfRange (s : State) : Bool := decide (s.pc.toNat > Config.lastFetch)

/-- The two bytes at PC and PC + 1, as they stand at the start of the step (R93). -/
def State.fetchWord (s : State) : Word := wordOfBytes (s.mem.read s.pc.toNat) (s.mem.read (s.pc.toNat + 1))

/-- `PC <- trunc16(a + 2)` before the dispatch (R94). -/
def State.advance (s : State) : State := { s with pc := s.pc + 2 }

/-- `if T > 0 then T <- T - 1` (R96, R97). -/
def tickDown (t : Byte) : Byte := if t = 0 then 0 else t - 1

/-- The delay timer, then the sound timer and the tone: true exactly when ST is found above 0 (R96, R97). -/
def State.tickTimers (s : State) : State :=
  { s with dt := tickDown s.dt, st := tickDown s.st, tone := decide (s.st ≠ 0) }

/-- The end of a step: a step that raised decrements no timer (R98); any other ticks the timers. -/
def State.finishStep (s : State) : State := if s.faulted then s else s.tickTimers

/-- A step of a faulted machine changes nothing and outputs tone false (R91). -/
def State.stuck (s : State) : State := { s with tone := false }

end Sys2Proof.Machine
end

