-- ==== Sys2Proof/Machine/Alu.lean ====
section
/-! DEFINITION. Family 8 (43_family8_alu.md): operands bound first (R150), result written first, flag last (R151). -/

namespace Sys2Proof.Machine

/-- 8XY0 (R152). -/
def execLdReg (x y : RegIdx) (s : State) : Result := .next (s.setV x (s.getV y))

/-- 8XY1 (R153). -/
def execOr (x y : RegIdx) (s : State) : Result := .next (s.setV x (s.getV x ||| s.getV y))

/-- 8XY2 (R154). -/
def execAnd (x y : RegIdx) (s : State) : Result := .next (s.setV x (s.getV x &&& s.getV y))

/-- 8XY3 (R155). -/
def execXor (x y : RegIdx) (s : State) : Result := .next (s.setV x (s.getV x ^^^ s.getV y))

/-- 8XY4 (R156). -/
def execAddReg (x y : RegIdx) (s : State) : Result :=
  let a := s.getV x
  let b := s.getV y
  .next (s.setResultAndFlag x (sum8 a b) (carryFlag a b))

/-- 8XY5 (R157). -/
def execSub (x y : RegIdx) (s : State) : Result :=
  let a := s.getV x
  let b := s.getV y
  .next (s.setResultAndFlag x (diff8 a b) (noBorrowFlag a b))

/-- 8XY6: shifts V[X], Y is not used (R158, R76). -/
def execShr (x : RegIdx) (s : State) : Result :=
  let a := s.getV x
  .next (s.setResultAndFlag x (half8 a) (shiftOutRight a))

/-- 8XY7 (R159). -/
def execSubn (x y : RegIdx) (s : State) : Result :=
  let a := s.getV x
  let b := s.getV y
  .next (s.setResultAndFlag x (diff8 b a) (noBorrowFlag b a))

/-- 8XYE: shifts V[X], Y is not used (R160, R76). -/
def execShl (x : RegIdx) (s : State) : Result :=
  let a := s.getV x
  .next (s.setResultAndFlag x (double8 a) (shiftOutLeft a))

/-- An unmatched family-8 word: no effect (R161). -/
def execNop8 (s : State) : Result := .next s

end Sys2Proof.Machine
end

