-- ==== Sys2Proof/Machine/Control.lean ====
section
/-! DEFINITION. Families 0, 1 and 2 (41_family0_1_2_control.md). Every meaning starts with PC = a + 2 (R94). -/

namespace Sys2Proof.Machine

/-- A framebuffer with every cell 0 (R31, R110). -/
def clearScreen : Framebuffer := Vector.replicate 32 (Vector.replicate 64 false)

/-- 00E0 (R110). -/
def execCls (s : State) : Result := .next { s with fb := clearScreen, drawFlag := true }

/-- 00EE (R111). -/
def execRet (s : State) : Result :=
  if s.sp = 0 then .next (s.raise .stackUnderflow 0) else .next s.popPc

/-- 0NNN, the legacy call: no effect (R112). -/
def execSys (s : State) : Result := .next s

/-- 1NNN (R113). -/
def execJp (nnn : Imm12) (s : State) : Result := .next { s with pc := addrOf nnn }

/-- 2NNN (R114). -/
def execCall (nnn : Imm12) (s : State) : Result :=
  if s.sp = 15 then .next (s.raise .stackOverflow s.sp.val) else .next { s.pushPc with pc := addrOf nnn }

end Sys2Proof.Machine
end

