-- ==== Sys2Proof/Machine/Keys.lean ====
section
/-! DEFINITION. Family E, the key skips (46_familyE_keys.md). The keypad is that of the step's start state (R100). -/

namespace Sys2Proof.Machine

/-- EX9E (R220, R222). -/
def execSkp (x : RegIdx) (s : State) : Result :=
  match keyOf (s.getV x) with
  | none   => .next (s.raise .keyIndexOutOfRange (s.getV x).toNat)
  | some k => .next (s.skipIf s.keypad[k.val])

/-- EXA1 (R221, R222). -/
def execSknp (x : RegIdx) (s : State) : Result :=
  match keyOf (s.getV x) with
  | none   => .next (s.raise .keyIndexOutOfRange (s.getV x).toNat)
  | some k => .next (s.skipIf (!s.keypad[k.val]))

/-- An unmatched family-E word: no effect, the keypad is not read (R223). -/
def execNopE (s : State) : Result := .next s

end Sys2Proof.Machine
end

