-- ==== Sys2Proof/Machine/Misc.lean ====
section
/-! DEFINITION. Families 9 to C (44_family9_to_C_misc.md). -/

namespace Sys2Proof.Machine

/-- 9XYN, any N (R180, R75). -/
def execSneReg (x y : RegIdx) (s : State) : Result := .next (s.skipIf (s.getV x != s.getV y))

/-- ANNN (R181). -/
def execLdI (nnn : Imm12) (s : State) : Result := .next { s with i := addrOf nnn }

/-- BNNN: V0 is always the index register (R182). -/
def execJpV0 (nnn : Imm12) (s : State) : Result := .next { s with pc := indexedTarget nnn (s.getV 0) }

/-- CXNN: `V[X] <- rand & NN`, with the free draw of this step (R183, R99; log entry 3). -/
def execRnd (x : RegIdx) (nn : Byte) (s : State) : Result :=
  .next { s.setV x (Config.rand s.draws &&& nn) with draws := s.draws + 1 }

end Sys2Proof.Machine
end

