-- ==== Sys2Proof/Machine/SkipLoad.lean ====
section
/-! DEFINITION. Families 3 to 7 (42_family3_to_7_skip_load.md). -/

namespace Sys2Proof.Machine

/-- 3XNN (R130). -/
def execSeImm (x : RegIdx) (nn : Byte) (s : State) : Result := .next (s.skipIf (s.getV x == nn))

/-- 4XNN (R131). -/
def execSneImm (x : RegIdx) (nn : Byte) (s : State) : Result := .next (s.skipIf (s.getV x != nn))

/-- 5XYN, any N (R132, R75). -/
def execSeReg (x y : RegIdx) (s : State) : Result := .next (s.skipIf (s.getV x == s.getV y))

/-- 6XNN (R133). -/
def execLdImm (x : RegIdx) (nn : Byte) (s : State) : Result := .next (s.setV x nn)

/-- 7XNN: the sum wraps and no flag is written (R134). -/
def execAddImm (x : RegIdx) (nn : Byte) (s : State) : Result := .next (s.setV x (sum8 (s.getV x) nn))

end Sys2Proof.Machine
end

