-- ==== Sys2Proof/Machine/Sprite.lean ====
section
/-! DEFINITION. Family D, the sprite XOR engine (45_familyD_sprite.md). -/

namespace Sys2Proof.Machine

/-- The cell `FB[x][y]` (R9, R31). -/
def Framebuffer.cell (fb : Framebuffer) (x : Fin 64) (y : Fin 32) : Bool := fb[y.val][x.val]

/-- The framebuffer with `FB[x][y]` toggled (R205). -/
def Framebuffer.toggle (fb : Framebuffer) (x : Fin 64) (y : Fin 32) : Framebuffer :=
  fb.set y.val (fb[y.val].set x.val (!fb[y.val][x.val]))

/-- The column of a horizontal position, wrapped at the right edge (R201, R204). -/
def wrapX (n : Nat) : Fin 64 := ⟨n % 64, Nat.mod_lt _ (by decide)⟩

/-- The row of a vertical position, wrapped at the bottom edge (R201, R204). -/
def wrapY (n : Nat) : Fin 32 := ⟨n % 32, Nat.mod_lt _ (by decide)⟩

/-- The sprite bit of column offset `col`: bit 7 is the leftmost pixel (R203; PRESUMED, log entry 5). -/
def spriteBit (b : Byte) (col : Nat) : Bool := b.getLsbD (7 - col)

/-- What a draw builds up: the framebuffer and the collision flag c (R200). -/
abbrev DrawState := Framebuffer × Bool

/-- A 1 bit over the cell: c becomes 1 if the cell was 1, and the cell is toggled (R205). -/
def drawPixel (d : DrawState) (x : Fin 64) (y : Fin 32) : DrawState :=
  (d.1.toggle x y, d.2 || d.1.cell x y)

/-- Column offsets `col`, `col + 1`, … (`k` of them) of one sprite byte on the row `py` (R203, R204). -/
def drawCols (x0 : Nat) (py : Fin 32) (b : Byte) : Nat → Nat → DrawState → DrawState
  | _, 0, d => d
  | col, k + 1, d =>
    drawCols x0 py b (col + 1) k (if spriteBit b col then drawPixel d (wrapX (x0 + col)) py else d)

/-- The sprite's rows from row offset `row` on, one byte each (R202, R204). -/
def drawRows (x0 y0 : Nat) : Nat → List Byte → DrawState → DrawState
  | _, [], d => d
  | row, b :: bs, d => drawRows x0 y0 (row + 1) bs (drawCols x0 (wrapY (y0 + row)) b 0 8 d)

/-- Draw a sprite at (x0 mod 64, y0 mod 32): the new framebuffer and the collision flag (R200, R201). -/
def drawSprite (fb : Framebuffer) (x0 y0 : Nat) (sprite : List Byte) : DrawState :=
  drawRows (x0 % 64) (y0 % 32) 0 sprite (fb, false)

/-- DXYN (R200 to R207): the position is read before VF is written (R201), every sprite byte is read with a bound
check and a fault leaves the framebuffer, VF and the draw-flag as they were (R202), VF and the draw-flag are always
written (R206). -/
def execDrw (x y : RegIdx) (n : Nibble) (s : State) : Result :=
  match s.mem.loadBlock s.i.toNat n.toNat with
  | .error a => .next (s.raise .memoryOutOfRange a)
  | .ok sprite =>
    let d := drawSprite s.fb (s.getV x).toNat (s.getV y).toNat sprite
    .next { s.setV 15 (flagByte d.2) with fb := d.1, drawFlag := true }

end Sys2Proof.Machine
end

