-- ==== Sys2Proof/Machine/TimersMemory.lean ====
section
/-! DEFINITION. Family F (47_familyF_timers_memory.md): timers, key wait, I arithmetic, BCD and block transfer. -/

namespace Sys2Proof.Machine

/-- FX07: DT before this step's decrement (R230). -/
def execLdVxDt (x : RegIdx) (s : State) : Result := .next (s.setV x s.dt)

/-- FX0A: the least pressed key completes it; with none it re-executes next step (R231; log entry 9). -/
def execLdVxK (x : RegIdx) (s : State) : Result :=
  match lowestPressed s.keypad with
  | some k => .next { s.setV x (trunc8 k.val) with keyWait := false }
  | none   => .next { s with pc := s.pc - 2, keyWait := true }

/-- FX15 (R232). -/
def execLdDtVx (x : RegIdx) (s : State) : Result := .next { s with dt := s.getV x }

/-- FX18 (R233). -/
def execLdStVx (x : RegIdx) (s : State) : Result := .next { s with st := s.getV x }

/-- FX1E: no overflow flag, no access (R234). -/
def execAddIVx (x : RegIdx) (s : State) : Result := .next { s with i := trunc16 (s.i.toNat + (s.getV x).toNat) }

/-- FX29 (R235). -/
def execLdFVx (x : RegIdx) (s : State) : Result := .next { s with i := glyphAddr (s.getV x) }

/-- FX33: I is not changed (R236). -/
def execLdBVx (x : RegIdx) (s : State) : Result :=
  match s.mem.storeBlock s.i.toNat (bcdDigits (s.getV x)) with
  | .error a => .next (s.raise .memoryOutOfRange a)
  | .ok m    => .next { s with mem := m }

/-- FX55 (R237). -/
def execLdMemVx (x : RegIdx) (s : State) : Result :=
  match s.mem.storeBlock s.i.toNat (s.regsUpTo x) with
  | .error a => .next (s.raise .memoryOutOfRange a)
  | .ok m    => .next { s with mem := m, i := s.iAfterBlock x }

/-- FX65 (R238). -/
def execLdVxMem (x : RegIdx) (s : State) : Result :=
  match s.mem.loadBlock s.i.toNat (x.val + 1) with
  | .error a => .next (s.raise .memoryOutOfRange a)
  | .ok bs   => .next { s with v := fillRegs s.v 0 bs, i := s.iAfterBlock x }

/-- An unmatched family-F word: no effect (R239). -/
def execNopF (s : State) : Result := .next s

end Sys2Proof.Machine
end

