-- ==== Sys2Proof/Machine/Step.lean ====
section
/-! DEFINITION. The step (40_step_and_dispatch.md R90 to R98), and the placing of an instruction where the next step
fetches it. -/

namespace Sys2Proof.Machine

/-- One step: the faulted check (R91), the fetch bound (R92), fetch and decode (R93, R95), the advance (R94), the
execute (R95), and the timers with the tone (R96, R97), in the order of R98. The random draw of R90 is the free
value `Config.rand`, the tone output is the field `tone` of the next state (log entries 2 and 3). -/
def step (s : State) : Host.Outcome State Fault Refusal :=
  if s.faulted then .next s.stuck
  else if s.fetchOutOfRange then .next (s.raiseAt s.pc .pcOutOfRange s.pc.toNat)
  else
    match exec (decodeWord s.fetchWord) s.advance with
    | .next t    => .next t.finishStep
    | .fault r   => .fault r
    | .refused r => .refused r

/-- The address the next step fetches from once an instruction is placed: PC, or the entry point 0x200 where PC is
beyond the last word of memory (R92), so that the placed instruction can be fetched. -/
def State.fetchPlace (s : State) : Word := if s.fetchOutOfRange then Config.resetPc else s.pc

/-- The state with the instruction of bits `w` (numbered as spec/opcode_table.json numbers them) stored at the
address the next step fetches from, high byte first (R53). PC is moved and the fault record cleared only where the
fetch could not happen otherwise (R91, R92). -/
def State.withFetchWord (s : State) (nbits w : Nat) : State :=
  { s with
    mem := s.mem.copyIn s.fetchPlace.toNat (bytesOfWord (trunc16 (w % 2 ^ nbits)))
    pc := s.fetchPlace
    fault := none }

end Sys2Proof.Machine
end

