-- ==== Sys2Proof/Machine/HostOps.lean ====
section
/-! DEFINITION. What the host does to the machine between steps (60_exceptions.md R275, 70_reset_and_hazards.md R290
to R294, 40_step_and_dispatch.md R101): reset, load, the keypad, the draw-flag, and what it reads. -/

namespace Sys2Proof.Machine

/-- Why `load` fails (R293). -/
inductive LoadError where
  /-- the ROM is longer than 3584 bytes; not a fault of the machine (R267) -/
  | romTooLarge
  deriving DecidableEq, Repr

/-- `reset()`: the reset state, from any state, also a faulted one (R290, R266). The index of the next random draw
is no state of the engine and is kept, so that the draws after a reset are fresh ones (R99; log entry 3). -/
def State.hostReset (s : State) : State := { State.reset with draws := s.draws }

/-- `load(bytes)`: at most 3584 bytes are copied to 0x200 onward and nothing else changes (R292); a longer ROM fails
and changes nothing (R293). -/
def State.load (s : State) (bytes : List Byte) : Except LoadError State :=
  if bytes.length > Config.maxRom then .error .romTooLarge
  else .ok { s with mem := s.mem.copyIn Config.progBase bytes }

/-- The host writes one key of the keypad (R32, R275). -/
def State.setKey (s : State) (k : Fin 16) (pressed : Bool) : State := { s with keypad := s.keypad.set k.val pressed }

/-- The host clears the draw-flag (R33, R275). -/
def State.clearDrawFlag (s : State) : State := { s with drawFlag := false }

/-- The framebuffer as the host reads it, 2048 cells with cell (x, y) at index y * 64 + x (R31, R275; log
entry 10). -/
def State.screen (s : State) : List Bool := (s.fb.toList.map Vector.toList).flatten

/-- The code of a fault kind (R261). -/
def Fault.code : Fault → Nat
  | .pcOutOfRange => 1
  | .memoryOutOfRange => 2
  | .stackOverflow => 3
  | .stackUnderflow => 4
  | .keyIndexOutOfRange => 5

/-- The code the host reads: 0 for no fault (R261, R275). -/
def State.faultCode (s : State) : Nat :=
  match s.fault with
  | none   => 0
  | some r => r.kind.code

/-- The host's actions between two steps (R101, R275); reading changes nothing. -/
inductive HostAction where
  | reset
  | load (bytes : List Byte)
  | setKey (k : Fin 16) (pressed : Bool)
  | clearDrawFlag
  deriving DecidableEq, Repr

/-- The state a host action leaves; a failed load leaves it as it was (R293). -/
def HostAction.apply (a : HostAction) (s : State) : State :=
  match a with
  | .reset => s.hostReset
  | .load bytes =>
    match s.load bytes with
    | .ok t    => t
    | .error _ => s
  | .setKey k pressed => s.setKey k pressed
  | .clearDrawFlag => s.clearDrawFlag

/-- What happens next in a run: a step or a host action (R103). -/
inductive Event where
  | step
  | host (a : HostAction)
  deriving DecidableEq, Repr

/-- A run over a finite sequence of steps and host actions (R103). -/
def runEvents : List Event → State → Host.Outcome State Fault Refusal
  | [], s => .next s
  | .host a :: es, s => runEvents es (a.apply s)
  | .step :: es, s =>
    match step s with
    | .next t    => runEvents es t
    | .fault r   => .fault r
    | .refused r => .refused r

end Sys2Proof.Machine
end

