-- ==== Sys2Proof/Safety.lean ====
section
/-! DEFINITION. The terms claims are stated in: the invariant of the machine, the cells a sprite covers, and what a
statement means by unchanged memory. -/

namespace Sys2Proof.Machine

/-- Every byte of memory reads as before. -/
def SameMemory (s t : State) : Prop := ∀ a : Nat, t.mem.read a = s.mem.read a

/-- Every byte of memory outside the `n` addresses from `a` on reads as before. -/
def SameMemoryOutside (a n : Nat) (s t : State) : Prop :=
  ∀ b : Nat, b < a ∨ a + n ≤ b → t.mem.read b = s.mem.read b

/-- Every general register but `x` holds what it held. -/
def SameRegsBut (x : RegIdx) (s t : State) : Prop := ∀ r : RegIdx, r ≠ x → t.getV r = s.getV r

/-- Only V[x] may differ. -/
def OnlyReg (x : RegIdx) (s t : State) : Prop := t = { s with v := t.v } ∧ SameRegsBut x s t ∧ SameMemory s t

/-- Only V[x] and the flag register VF may differ. -/
def OnlyRegAndFlag (x : RegIdx) (s t : State) : Prop :=
  t = { s with v := t.v } ∧ (∀ r : RegIdx, r ≠ x → r ≠ 15 → t.getV r = s.getV r) ∧ SameMemory s t

/-- Only PC may differ. -/
def OnlyPc (s t : State) : Prop := t = { s with pc := t.pc } ∧ SameMemory s t

/-- The registers an instruction may write (R23): its destination V[X], VF as a flag, or V[0..X]. -/
def regWritten (i : Instr) (r : RegIdx) : Bool :=
  match i with
  | .ldImm x _ | .addImm x _ | .rnd x _ | .ldVxDt x | .ldVxK x => r = x
  | .ldReg x _ | .or x _ | .and x _ | .xor x _ => r = x
  | .addReg x _ | .sub x _ | .shr x _ | .subn x _ | .shl x _ => r = x || r = 15
  | .drw _ _ _ => r = 15
  | .ldVxMem x => r ≤ x
  | .cls _ | .ret _ | .sys _ | .jp _ | .call _ | .seImm _ _ | .sneImm _ _ | .seReg _ _ _ | .sneReg _ _ _ => false
  | .nop8 _ _ _ | .ldI _ | .jpV0 _ | .skp _ | .sknp _ | .nopE _ _ | .nopF _ _ => false
  | .ldDtVx _ | .ldStVx _ | .addIVx _ | .ldFVx _ | .ldBVx _ | .ldMemVx _ => false

/-- The instructions that write the address register I (R24). -/
def writesI : Instr → Bool
  | .ldI _ | .addIVx _ | .ldFVx _ | .ldMemVx _ | .ldVxMem _ => true
  | .cls _ | .ret _ | .sys _ | .jp _ | .call _ | .seImm _ _ | .sneImm _ _ | .seReg _ _ _ | .sneReg _ _ _ => false
  | .ldImm _ _ | .addImm _ _ | .ldReg _ _ | .or _ _ | .and _ _ | .xor _ _ | .addReg _ _ | .sub _ _ => false
  | .shr _ _ | .subn _ _ | .shl _ _ | .nop8 _ _ _ | .jpV0 _ | .rnd _ _ | .drw _ _ _ | .skp _ | .sknp _ => false
  | .nopE _ _ | .ldVxDt _ | .ldVxK _ | .ldDtVx _ | .ldStVx _ | .ldBVx _ | .nopF _ _ => false

/-- The conditional skips (R130 to R132, R180, R220, R221). -/
def isSkip : Instr → Bool
  | .seImm _ _ | .sneImm _ _ | .seReg _ _ _ | .sneReg _ _ _ | .skp _ | .sknp _ => true
  | .cls _ | .ret _ | .sys _ | .jp _ | .call _ | .ldImm _ _ | .addImm _ _ | .ldReg _ _ | .or _ _ | .and _ _ => false
  | .xor _ _ | .addReg _ _ | .sub _ _ | .shr _ _ | .subn _ _ | .shl _ _ | .nop8 _ _ _ | .ldI _ | .jpV0 _ => false
  | .rnd _ _ | .drw _ _ _ | .nopE _ _ | .ldVxDt _ | .ldVxK _ | .ldDtVx _ | .ldStVx _ | .addIVx _ | .ldFVx _ => false
  | .ldBVx _ | .ldMemVx _ | .ldVxMem _ | .nopF _ _ => false

/-- The fault kind an instruction can raise, if any (R261, column "raised by"). -/
def raisedBy : Instr → Option Fault
  | .drw _ _ _ | .ldBVx _ | .ldMemVx _ | .ldVxMem _ => some .memoryOutOfRange
  | .call _ => some .stackOverflow
  | .ret _ => some .stackUnderflow
  | .skp _ | .sknp _ => some .keyIndexOutOfRange
  | .cls _ | .sys _ | .jp _ | .seImm _ _ | .sneImm _ _ | .seReg _ _ _ | .sneReg _ _ _ | .ldImm _ _ | .addImm _ _ => none
  | .ldReg _ _ | .or _ _ | .and _ _ | .xor _ _ | .addReg _ _ | .sub _ _ | .shr _ _ | .subn _ _ | .shl _ _ => none
  | .nop8 _ _ _ | .ldI _ | .jpV0 _ | .rnd _ _ | .nopE _ _ | .ldVxDt _ | .ldVxK _ | .ldDtVx _ | .ldStVx _ => none
  | .addIVx _ | .ldFVx _ | .nopF _ _ => none

/-- What a fault record of each kind says of the state it stands in: the step that raised it changed nothing, so the
cause is still there (R261, R262, R263). -/
def FaultRecord.explains (r : FaultRecord) (s : State) : Bool :=
  decide (r.pc = s.pc) && !s.tone &&
  match r.kind with
  | .pcOutOfRange       => decide (s.pc.toNat > Config.lastFetch ∧ r.info = s.pc.toNat)
  | .memoryOutOfRange   => decide (s.pc.toNat ≤ Config.lastFetch ∧ r.info = max s.i.toNat Config.memSize)
  | .stackOverflow      => decide (s.pc.toNat ≤ Config.lastFetch ∧ s.sp = 15 ∧ r.info = 15)
  | .stackUnderflow     => decide (s.pc.toNat ≤ Config.lastFetch ∧ s.sp = 0 ∧ r.info = 0)
  | .keyIndexOutOfRange => decide (s.pc.toNat ≤ Config.lastFetch ∧ ∃ x : RegIdx, r.info = (s.getV x).toNat ∧ 15 < r.info)

/-- The invariant of the machine: memory is canonical; PC never exceeds 0x10FE (R92, R182); no stack slot exceeds
0x1000 (R92, R114) and slot 0 is never written (R28); a fault record explains itself (R262, R263). -/
def State.inv (s : State) : Bool :=
  s.mem.wf &&
  decide (s.pc.toNat ≤ 0x10FE) &&
  decide (∀ k : Fin 16, (s.stack[k.val]).toNat ≤ 0x1000) &&
  decide (s.stack[0] = 0) &&
  (match s.fault with
   | none   => true
   | some r => r.explains s)

/-- A state in which a step runs an instruction: no fault is recorded and the fetch is in range (R91, R92). -/
def State.canFetch (s : State) : Prop := s.fault = none ∧ s.pc.toNat ≤ Config.lastFetch

/-- The sprite bytes of a draw of `n` rows from I, row offset `row` (R202). -/
def State.spriteByte (s : State) (row : Nat) : Byte := s.mem.read (s.i.toNat + row)

/-- Whether a draw at (V[x] mod 64, V[y] mod 32) with `n` rows has a 1 bit over the cell (px, py): some row and column
offset lands there with its bit set, bit 7 leftmost (R201 to R204; log entry 5). -/
def State.spriteCovers (s : State) (x y : RegIdx) (n : Nat) (px : Fin 64) (py : Fin 32) : Prop :=
  ∃ row col : Nat, row < n ∧ col < 8 ∧ (s.spriteByte row).getLsbD (7 - col) = true ∧
    px.val = ((s.getV x).toNat % 64 + col) % 64 ∧ py.val = ((s.getV y).toNat % 32 + row) % 32

/-- A safe run: every step of it answers a next state and none leaves a fault recorded. -/
def SafeRun : Nat → State → Prop
  | 0, s => s.fault = none
  | k + 1, s => s.fault = none ∧ ∃ t, step s = .next t ∧ SafeRun k t

end Sys2Proof.Machine
end

