-- ==== Sys2Proof/Certificates/Slice0/Obligations.lean ====
section
/-! DEFINITION. The statements about the machine, for the provers. Each docstring names the rule of spec/ it
formalises; one that rests on a decision the spec marks as its own (D<n> of 92_eei_decisions.md), or on a choice of
the model, says so. `OnlyReg`, `OnlyRegAndFlag`, `OnlyPc`, `SameMemory` and the other terms are in Safety.lean. -/

open Sys2Proof Sys2Proof.Machine

/-! ## Encoding -/

/-- Decoding the two bytes of a well-formed instruction gives it back with every operand, and leaves the bytes after
it alone (30_encoding.md, rules R70 to R79; families 0 and E dispatch on n2 by the spec's own decision D8). -/
def Obligations.DecodeOfEncodeIsIdentity : Prop :=
  ∀ (i : Instr) (rest : List Byte), i.wellFormed = true →
    decodeWord (encode i) = i ∧ decode (bytesOfWord (encode i) ++ rest) = .ok (i, rest)

/-- Every word decodes to a well-formed instruction whose own word it is: no bit of a word is dropped, no two words
decode alike (30_encoding.md, totality of the decoder). -/
def Obligations.EncodeOfDecodeIsIdentity : Prop :=
  ∀ w : Word, (decodeWord w).wellFormed = true ∧ encode (decodeWord w) = w

/-- The two-level decoder selects, for each of the 65536 words, the row that the mask and match table gives it, with
priority-1 rows before priority-2 rows, and no two priority-1 rows select one word (30_encoding.md sections 2; D8). -/
def Obligations.DecoderAgreesWithOpcodeMap : Prop :=
  ∀ w : Word,
    (∃ r, selectRow w = some r ∧ r.mnemonic = (decodeWord w).mnemonic) ∧
    (∀ r ∈ opcodeRows1, ∀ q ∈ opcodeRows1, r.selects w = true → q.selects w = true → r = q)

/-- Sixteen words of families 0, 1, 2, 3, 5, 8, A, C, D, E and F (none of families 4, 6, 7, 9 and B), written out from
the opcode patterns and the worked examples of the rules, decode to the instruction the rule names (R110 to R114,
R130, R132, R156, R160, R161, R181, R183, R200, R220, R238, R239). A sanity statement. -/
def Obligations.SampleWordsDecode : Prop :=
  decodeWord 0x00E0 = .cls 0 ∧ decodeWord 0x00EE = .ret 0 ∧ decodeWord 0x0123 = .sys 0x123 ∧
  decodeWord 0x1ABC = .jp 0xABC ∧ decodeWord 0x2300 = .call 0x300 ∧ decodeWord 0x3305 = .seImm 3 0x05 ∧
  decodeWord 0x5121 = .seReg 1 2 1 ∧ decodeWord 0x8124 = .addReg 1 2 ∧ decodeWord 0x810E = .shl 1 0 ∧
  decodeWord 0x812F = .nop8 1 2 0xF ∧ decodeWord 0xA200 = .ldI 0x200 ∧ decodeWord 0xC10F = .rnd 1 0x0F ∧
  decodeWord 0xD015 = .drw 0 1 5 ∧ decodeWord 0xE19E = .skp 1 ∧ decodeWord 0xF265 = .ldVxMem 2 ∧
  decodeWord 0xF1FF = .nopF 1 0xFF

/-! ## Families 0, 1 and 2 -/

/-- 41_family0_1_2_control.md, rule of 00E0: CLS clears all 2048 cells and sets the draw-flag, from any framebuffer,
and changes nothing else. That every word 0x0XE0 is CLS, also with X not 0, is the spec's own decision D8 (log entry
6). -/
def Obligations.ClearScreenZeroesEveryCell : Prop :=
  (∀ w : Word, w.toNat / 4096 = 0x0 → w.toNat % 256 = 0xE0 → decodeWord w = .cls (xBits w)) ∧
  ∀ (x : Nibble) (s : State), ∃ t, exec (.cls x) s = .next t ∧
    (∀ px py, t.fb.cell px py = false) ∧ t.drawFlag = true ∧
    t = { s with fb := t.fb, drawFlag := true } ∧ SameMemory s t

/-- R112, R161, R223, R239: the legacy call and every unmatched word have no effect beyond the fetch's advance. The
second half says it of words: family 0 but E0 and EE, family 8 with N one of 8-D and F, family E but 9E and A1,
family F outside its nine selectors (field positions by R71). -/
def Obligations.NoOpWordsHaveNoEffect : Prop :=
  ∀ s : State,
    (∀ nnn, exec (.sys nnn) s = .next s) ∧ (∀ x y n, exec (.nop8 x y n) s = .next s) ∧
    (∀ x nn, exec (.nopE x nn) s = .next s) ∧ (∀ x nn, exec (.nopF x nn) s = .next s) ∧
    ∀ w : Word,
      (w.toNat / 4096 = 0x0 ∧ w.toNat % 256 ≠ 0xE0 ∧ w.toNat % 256 ≠ 0xEE) ∨
      (w.toNat / 4096 = 0x8 ∧ 7 < w.toNat % 16 ∧ w.toNat % 16 ≠ 0xE) ∨
      (w.toNat / 4096 = 0xE ∧ w.toNat % 256 ≠ 0x9E ∧ w.toNat % 256 ≠ 0xA1) ∨
      (w.toNat / 4096 = 0xF ∧ w.toNat % 256 ∉ [0x07, 0x0A, 0x15, 0x18, 0x1E, 0x29, 0x33, 0x55, 0x65]) →
      exec (decodeWord w) s = .next s

/-- 41_family0_1_2_control.md, rule of 1NNN: the words of family 1 are JP with NNN in bits 11 to 0; JP sets PC to NNN,
odd or even, and nothing else. That of these targets only 0xFFF lies beyond the bound of the next fetch is the spec's
decision D2 (log entry 8); that odd targets run is D3 (log entry 13). -/
def Obligations.JumpSetsPc : Prop :=
  (∀ w : Word, w.toNat / 4096 = 0x1 → decodeWord w = .jp (nnnField w)) ∧
  ∀ (nnn : Imm12) (s : State), ∃ t, exec (.jp nnn) s = .next t ∧
    t.pc.toNat = nnn.toNat ∧ (t.fetchOutOfRange = true ↔ nnn.toNat = 0xFFF) ∧ OnlyPc s t

/-- 44_family9_to_C_misc.md, rule of BNNN (its out-of-range fetch is the spec's decision D2): PC is NNN + V0, not
reduced, whatever the x field holds; nothing else changes. -/
def Obligations.IndexedJumpAddsV0 : Prop :=
  ∀ (nnn : Imm12) (s : State), ∃ t, exec (.jpV0 nnn) s = .next t ∧
    t.pc.toNat = nnn.toNat + (s.getV 0).toNat ∧
    (t.fetchOutOfRange = true ↔ nnn.toNat + (s.getV 0).toNat > 0xFFE) ∧ OnlyPc s t

/-- 41_family0_1_2_control.md, rule of 2NNN (overflow is the spec's decision D5): with SP below 15, CALL increments
SP, writes PC into the slot SP then names, sets PC to NNN, and changes no other slot and nothing else. -/
def Obligations.CallPushesReturnAddress : Prop :=
  ∀ (nnn : Imm12) (s : State), s.sp ≠ 15 → ∃ t, exec (.call nnn) s = .next t ∧
    t.sp.val = s.sp.val + 1 ∧ t.stack[t.sp.val] = s.pc ∧ t.pc.toNat = nnn.toNat ∧
    (∀ k : Fin 16, k ≠ t.sp → t.stack[k.val] = s.stack[k.val]) ∧
    t = { s with sp := t.sp, stack := t.stack, pc := t.pc } ∧ SameMemory s t

/-- 41_family0_1_2_control.md, rule of 00EE (underflow is the spec's decision D6): with SP above 0, RET sets PC to the
slot SP names and decrements SP; the slot is not cleared and nothing else changes. -/
def Obligations.ReturnPopsReturnAddress : Prop :=
  ∀ (x : Nibble) (s : State), s.sp ≠ 0 → ∃ t, exec (.ret x) s = .next t ∧
    t.pc = s.stack[s.sp.val] ∧ t.sp.val + 1 = s.sp.val ∧
    t = { s with pc := t.pc, sp := t.sp } ∧ SameMemory s t

/-- 41_family0_1_2_control.md: a return straight after a call resumes after the call, with SP and every slot up to SP
as before the call (the nesting of at most 15 calls is the spec's decision D5). -/
def Obligations.ReturnUndoesCall : Prop :=
  ∀ (nnn : Imm12) (x : Nibble) (s : State), s.sp ≠ 15 →
    ∃ t u, exec (.call nnn) s = .next t ∧ exec (.ret x) t = .next u ∧
      u.pc = s.pc ∧ u.sp = s.sp ∧ (∀ k : Fin 16, k ≤ s.sp → u.stack[k.val] = s.stack[k.val]) ∧
      u = { s with stack := u.stack }

/-! ## Families 3 to 7 and 9: skips, load and add immediate -/

/-- R130, R131: the words of families 3 and 4 are 3XNN and 4XNN; 3XNN adds 2 more to PC exactly when V[X] = NN, 4XNN
exactly when V[X] ≠ NN, modulo 65536; every other piece of state is unchanged. -/
def Obligations.ImmediateSkips : Prop :=
  (∀ w : Word, (w.toNat / 4096 = 0x3 → decodeWord w = .seImm (xField w) (nnField w)) ∧
    (w.toNat / 4096 = 0x4 → decodeWord w = .sneImm (xField w) (nnField w))) ∧
  ∀ (x : RegIdx) (nn : Byte) (s : State),
    (∃ t, exec (.seImm x nn) s = .next t ∧ OnlyPc s t ∧
      t.pc.toNat = (s.pc.toNat + if s.getV x = nn then 2 else 0) % 65536) ∧
    (∃ t, exec (.sneImm x nn) s = .next t ∧ OnlyPc s t ∧
      t.pc.toNat = (s.pc.toNat + if s.getV x = nn then 0 else 2) % 65536)

/-- R132, R180: the words of families 5 and 9 are 5XYN and 9XYN, N not examined; 5XYN adds 2 more to PC exactly when
V[X] = V[Y], 9XYN exactly when V[X] ≠ V[Y], for every N, modulo 65536; with X = Y the first always and the second
never skips; every other piece of state is unchanged. -/
def Obligations.RegisterSkips : Prop :=
  (∀ w : Word, (w.toNat / 4096 = 0x5 → decodeWord w = .seReg (xField w) (yField w) (nField w)) ∧
    (w.toNat / 4096 = 0x9 → decodeWord w = .sneReg (xField w) (yField w) (nField w))) ∧
  ∀ (x y : RegIdx) (n : Nibble) (s : State),
    (∃ t, exec (.seReg x y n) s = .next t ∧ OnlyPc s t ∧
      t.pc.toNat = (s.pc.toNat + if s.getV x = s.getV y then 2 else 0) % 65536 ∧
      (x = y → t.pc.toNat = (s.pc.toNat + 2) % 65536)) ∧
    (∃ t, exec (.sneReg x y n) s = .next t ∧ OnlyPc s t ∧
      t.pc.toNat = (s.pc.toNat + if s.getV x = s.getV y then 0 else 2) % 65536 ∧
      (x = y → t.pc = s.pc))

/-- R133, R134: the words of families 6 and 7 are 6XNN and 7XNN; 6XNN leaves V[X] = NN; 7XNN leaves V[X] = (V[X] + NN)
mod 256; no flag is written, so that no other register, VF included, changes; nothing else changes. -/
def Obligations.ImmediateLoadAndAdd : Prop :=
  (∀ w : Word, (w.toNat / 4096 = 0x6 → decodeWord w = .ldImm (xField w) (nnField w)) ∧
    (w.toNat / 4096 = 0x7 → decodeWord w = .addImm (xField w) (nnField w))) ∧
  ∀ (x : RegIdx) (nn : Byte) (s : State),
    (∃ t, exec (.ldImm x nn) s = .next t ∧ t.getV x = nn ∧ OnlyReg x s t) ∧
    (∃ t, exec (.addImm x nn) s = .next t ∧
      (t.getV x).toNat = ((s.getV x).toNat + nn.toNat) % 256 ∧ OnlyReg x s t)

/-! ## Family 8 -/

/-- R152 to R155: the family-8 words with N = 0 to 3 are move, or, and, xor; their effect, said bit by bit of the
result; no flag is written, so that no register but V[X] changes; nothing else changes. -/
def Obligations.MoveAndLogic : Prop :=
  (∀ w : Word, w.toNat / 4096 = 0x8 →
    (w.toNat % 16 = 0x0 → decodeWord w = .ldReg (xField w) (yField w)) ∧
    (w.toNat % 16 = 0x1 → decodeWord w = .or (xField w) (yField w)) ∧
    (w.toNat % 16 = 0x2 → decodeWord w = .and (xField w) (yField w)) ∧
    (w.toNat % 16 = 0x3 → decodeWord w = .xor (xField w) (yField w))) ∧
  ∀ (x y : RegIdx) (s : State),
    (∃ t, exec (.ldReg x y) s = .next t ∧ t.getV x = s.getV y ∧ OnlyReg x s t) ∧
    (∃ t, exec (.or x y) s = .next t ∧ OnlyReg x s t ∧
      ∀ k < 8, (t.getV x).getLsbD k = ((s.getV x).getLsbD k || (s.getV y).getLsbD k)) ∧
    (∃ t, exec (.and x y) s = .next t ∧ OnlyReg x s t ∧
      ∀ k < 8, (t.getV x).getLsbD k = ((s.getV x).getLsbD k && (s.getV y).getLsbD k)) ∧
    (∃ t, exec (.xor x y) s = .next t ∧ OnlyReg x s t ∧
      ∀ k < 8, (t.getV x).getLsbD k = ((s.getV x).getLsbD k != (s.getV y).getLsbD k))

/-- 43_family8_alu.md, rule of 8XY4: VF is the carry of the pre-truncation sum of the operands as bound before any
write, also with X = F, Y = F or X = Y; V[X] is the sum mod 256 when X ≠ F. That VF ends as the flag with X = F is the
spec's own decision D9 (log entry 7). -/
def Obligations.AddSetsCarry : Prop :=
  ∀ (x y : RegIdx) (s : State), ∃ t, exec (.addReg x y) s = .next t ∧
    (x ≠ 15 → (t.getV x).toNat = ((s.getV x).toNat + (s.getV y).toNat) % 256) ∧
    (t.getV 15).toNat = (if (s.getV x).toNat + (s.getV y).toNat > 255 then 1 else 0) ∧
    OnlyRegAndFlag x s t

/-- 43_family8_alu.md, rules of 8XY5 and 8XY7: the difference mod 256 in V[X] when X ≠ F, and VF = 1 exactly when no
borrow occurs. That VF ends as the flag with X = F is the spec's own decision D9 (log entry 7). -/
def Obligations.SubtractsSetNoBorrow : Prop :=
  ∀ (x y : RegIdx) (s : State),
    (∃ t, exec (.sub x y) s = .next t ∧
      (x ≠ 15 → (t.getV x).toNat = ((s.getV x).toNat + 256 - (s.getV y).toNat) % 256) ∧
      (t.getV 15).toNat = (if (s.getV x).toNat ≥ (s.getV y).toNat then 1 else 0) ∧ OnlyRegAndFlag x s t) ∧
    (∃ t, exec (.subn x y) s = .next t ∧
      (x ≠ 15 → (t.getV x).toNat = ((s.getV y).toNat + 256 - (s.getV x).toNat) % 256) ∧
      (t.getV 15).toNat = (if (s.getV y).toNat ≥ (s.getV x).toNat then 1 else 0) ∧ OnlyRegAndFlag x s t)

/-- 43_family8_alu.md, rules of 8XY6 and 8XYE: V[X] is shifted by one, whatever V[Y] holds, and VF is the bit shifted
out, bit 0 or bit 7 before the shift. That VF ends as the flag with X = F is the spec's own decision D9 (log
entry 7). -/
def Obligations.ShiftsSetShiftedOutBit : Prop :=
  ∀ (x y : RegIdx) (s : State),
    (∃ t, exec (.shr x y) s = .next t ∧
      (x ≠ 15 → (t.getV x).toNat = (s.getV x).toNat / 2) ∧
      (t.getV 15).toNat = (if (s.getV x).getLsbD 0 then 1 else 0) ∧ OnlyRegAndFlag x s t) ∧
    (∃ t, exec (.shl x y) s = .next t ∧
      (x ≠ 15 → (t.getV x).toNat = ((s.getV x).toNat * 2) % 256) ∧
      (t.getV 15).toNat = (if (s.getV x).getLsbD 7 then 1 else 0) ∧ OnlyRegAndFlag x s t)

/-- 95_test_vectors.md E2 and E3 (90_conflicts.md C7): the carry of 8XY4 does not depend on the order of its operands,
and the flags of 8XY5 and 8XY7 from one start state are complementary exactly when V[X] ≠ V[Y] (both 1 otherwise); for
X or Y = F the flag is VF by the spec's own decision D9. -/
def Obligations.CarrySymmetricBorrowsComplementary : Prop :=
  ∀ (x y : RegIdx) (s : State), ∃ t u d e,
    exec (.addReg x y) s = .next t ∧ exec (.addReg y x) s = .next u ∧ t.getV 15 = u.getV 15 ∧
    exec (.sub x y) s = .next d ∧ exec (.subn x y) s = .next e ∧
    ((s.getV x ≠ s.getV y) ↔ (d.getV 15).toNat + (e.getV 15).toNat = 1) ∧
    (s.getV x = s.getV y → d.getV 15 = 1 ∧ e.getV 15 = 1)

/-! ## I, random, timers -/

/-- R181, R234, R235: the words of family A and the family-F words ending in 1E and 29 are these; ANNN leaves I = NNN,
FX1E leaves I = (I + V[X]) mod 65536 with VF unchanged, FX29 leaves I = V[X] * 5 with the whole register; no memory is
accessed and nothing else changes. -/
def Obligations.AddressRegisterWrites : Prop :=
  (∀ w : Word, (w.toNat / 4096 = 0xA → decodeWord w = .ldI (nnnField w)) ∧
    (w.toNat / 4096 = 0xF → w.toNat % 256 = 0x1E → decodeWord w = .addIVx (xField w)) ∧
    (w.toNat / 4096 = 0xF → w.toNat % 256 = 0x29 → decodeWord w = .ldFVx (xField w))) ∧
  ∀ s : State,
    (∀ nnn : Imm12, ∃ t, exec (.ldI nnn) s = .next t ∧
      t.i.toNat = nnn.toNat ∧ t = { s with i := t.i } ∧ SameMemory s t) ∧
    (∀ x : RegIdx, ∃ t, exec (.addIVx x) s = .next t ∧
      t.i.toNat = (s.i.toNat + (s.getV x).toNat) % 65536 ∧ t = { s with i := t.i } ∧ SameMemory s t) ∧
    (∀ x : RegIdx, ∃ t, exec (.ldFVx x) s = .next t ∧
      t.i.toNat = (s.getV x).toNat * 5 ∧ t = { s with i := t.i } ∧ SameMemory s t)

/-- 44_family9_to_C_misc.md, rule of CXNN (the free draw is the spec's decision D13, its form the model's, log
entry 3): V[X] is the draw and NN, bits outside NN are 0 whatever the draw is, no other register changes, and the next
draw is another one. Holds for every value of the draw. -/
def Obligations.RandomIsMaskedDraw : Prop :=
  ∀ (x : RegIdx) (nn : Byte) (s : State), ∃ t, exec (.rnd x nn) s = .next t ∧
    t.getV x = Config.rand s.draws &&& nn ∧
    (∀ k, nn.getLsbD k = false → (t.getV x).getLsbD k = false) ∧
    t.draws = s.draws + 1 ∧ t = { s with v := t.v, draws := t.draws } ∧ SameRegsBut x s t ∧ SameMemory s t

/-- 47_familyF_timers_memory.md, rules of FX07, FX15 and FX18: FX07 copies DT to V[X]; FX15 and FX18 copy V[X] to DT
and ST; nothing else changes before the end of the step. -/
def Obligations.TimerTransfers : Prop :=
  ∀ (x : RegIdx) (s : State),
    (∃ t, exec (.ldVxDt x) s = .next t ∧ t.getV x = s.dt ∧ OnlyReg x s t) ∧
    (∃ t, exec (.ldDtVx x) s = .next t ∧ t.dt = s.getV x ∧ t = { s with dt := t.dt } ∧ SameMemory s t) ∧
    (∃ t, exec (.ldStVx x) s = .next t ∧ t.st = s.getV x ∧ t = { s with st := t.st } ∧ SameMemory s t)

/-- 40_step_and_dispatch.md and 47_familyF_timers_memory.md (derived corner cases; the tone is the spec's decision
D22): a timer written in a step is decremented in that step, and FX07 reads DT before its step's decrement. -/
def Obligations.TimerWrittenIsTickedInSameStep : Prop :=
  ∀ (x : RegIdx) (s : State), s.canFetch →
    (decodeWord s.fetchWord = .ldDtVx x → ∃ t, step s = .next t ∧ t.dt.toNat = (s.getV x).toNat - 1) ∧
    (decodeWord s.fetchWord = .ldStVx x → ∃ t, step s = .next t ∧ t.st.toNat = (s.getV x).toNat - 1 ∧
      (t.tone = true ↔ 0 < (s.getV x).toNat)) ∧
    (decodeWord s.fetchWord = .ldVxDt x → ∃ t, step s = .next t ∧ t.getV x = s.dt ∧ t.dt.toNat = s.dt.toNat - 1)

/-! ## The sprite engine -/

/-- 45_familyD_sprite.md (bit order: the spec's decision D11, log entry 5; range check: D4): a draw whose bytes lie in
memory toggles exactly the cells under a 1 bit, with wrap, sets VF to 1 exactly when such a cell was 1 and to 0
otherwise, sets the draw-flag always, and changes no other register, no byte of memory and nothing else. N = 0 and
X or Y = F are included. -/
def Obligations.DrawTogglesExactlyCoveredCells : Prop :=
  ∀ (x y : RegIdx) (n : Nibble) (s : State), n.toNat = 0 ∨ s.i.toNat + n.toNat ≤ 0x1000 →
    ∃ t, exec (.drw x y n) s = .next t ∧
      (∀ px py, (s.spriteCovers x y n.toNat px py → t.fb.cell px py = !s.fb.cell px py) ∧
        (¬ s.spriteCovers x y n.toNat px py → t.fb.cell px py = s.fb.cell px py)) ∧
      ((∃ px py, s.spriteCovers x y n.toNat px py ∧ s.fb.cell px py = true) → t.getV 15 = 1) ∧
      ((¬ ∃ px py, s.spriteCovers x y n.toNat px py ∧ s.fb.cell px py = true) → t.getV 15 = 0) ∧
      t = { s with v := t.v, fb := t.fb, drawFlag := true } ∧ SameRegsBut 15 s t ∧ SameMemory s t

/-- 45_familyD_sprite.md, derived cases, and 90_conflicts.md C6: a second identical draw at the same position restores
the framebuffer, and its VF is 0 exactly when every cell under a 1 bit was 1 before the first draw. Which cells lie
under a 1 bit takes bit 7 as the leftmost pixel, the spec's decision D11 (log entry 5, PRESUMED); the range of the
sprite bytes is its decision D4 (log entry 8). -/
def Obligations.DrawTwiceRestoresScreen : Prop :=
  ∀ (x y : RegIdx) (n : Nibble) (s t : State), n.toNat = 0 ∨ s.i.toNat + n.toNat ≤ 0x1000 →
    exec (.drw x y n) s = .next t →
    (t.getV x).toNat % 64 = (s.getV x).toNat % 64 → (t.getV y).toNat % 32 = (s.getV y).toNat % 32 →
    ∃ u, exec (.drw x y n) t = .next u ∧ u.fb = s.fb ∧
      (u.getV 15 = 0 ↔ ∀ px py, s.spriteCovers x y n.toNat px py → s.fb.cell px py = true)

/-! ## Keys -/

/-- 46_familyE_keys.md (a key index above 15 faults by the spec's decision D7): with V[X] at most 15, EX9E adds 2 more
to PC exactly when the key V[X] is pressed, EXA1 exactly when it is not; nothing else changes. -/
def Obligations.KeySkips : Prop :=
  ∀ (x : RegIdx) (k : Fin 16) (s : State), (s.getV x).toNat = k.val →
    (∃ t, exec (.skp x) s = .next t ∧ OnlyPc s t ∧
      t.pc.toNat = (s.pc.toNat + if s.keypad[k.val] then 2 else 0) % 65536) ∧
    (∃ t, exec (.sknp x) s = .next t ∧ OnlyPc s t ∧
      t.pc.toNat = (s.pc.toNat + if s.keypad[k.val] then 0 else 2) % 65536)

/-- 47_familyF_timers_memory.md, rule of FX0A (the latch and the level condition are the spec's decision D14, log
entry 9): with a key pressed, V[X] is the least pressed key and the latch is cleared; with none, PC steps back 2 and
the latch is set; nothing else changes. -/
def Obligations.KeyWaitTakesLeastKey : Prop :=
  ∀ (x : RegIdx) (s : State),
    (∀ k : Fin 16, s.keypad[k.val] = true → (∀ j : Fin 16, j < k → s.keypad[j.val] = false) →
      ∃ t, exec (.ldVxK x) s = .next t ∧ (t.getV x).toNat = k.val ∧ t.keyWait = false ∧
        t = { s with v := t.v, keyWait := false } ∧ SameRegsBut x s t ∧ SameMemory s t) ∧
    ((∀ k : Fin 16, s.keypad[k.val] = false) →
      ∃ t, exec (.ldVxK x) s = .next t ∧ t.pc.toNat = (s.pc.toNat + 65534) % 65536 ∧ t.keyWait = true ∧
        t = { s with pc := t.pc, keyWait := true } ∧ SameMemory s t)

/-- 40_step_and_dispatch.md section 3 and 47_familyF_timers_memory.md (latch: D14, tone: D22): a step in which FX0A
finds no key leaves PC at the instruction, so that it runs again, while both timers count down. -/
def Obligations.KeyWaitBlocksWhileTimersRun : Prop :=
  ∀ (x : RegIdx) (s : State), s.canFetch → decodeWord s.fetchWord = .ldVxK x →
    (∀ k : Fin 16, s.keypad[k.val] = false) →
    ∃ t, step s = .next t ∧ t.pc = s.pc ∧ t.fetchWord = s.fetchWord ∧ t.keyWait = true ∧
      t.dt.toNat = s.dt.toNat - 1 ∧ t.st.toNat = s.st.toNat - 1 ∧ (t.tone = true ↔ 0 < s.st.toNat) ∧
      t = { s with keyWait := true, dt := t.dt, st := t.st, tone := t.tone }

/-! ## Memory transfers -/

/-- 47_familyF_timers_memory.md, rule of FX33 (range check: the spec's decision D4): the three decimal digits of V[X]
stand at I, I + 1 and I + 2, every other byte reads as before, and nothing else changes, I included. Memory canonical,
an invariant of its own. -/
def Obligations.BcdStoresThreeDigits : Prop :=
  ∀ (x : RegIdx) (s : State), s.mem.wf = true → s.i.toNat + 2 ≤ 0xFFF →
    ∃ t, exec (.ldBVx x) s = .next t ∧
      (t.mem.read s.i.toNat).toNat = (s.getV x).toNat / 100 ∧
      (t.mem.read (s.i.toNat + 1)).toNat = (s.getV x).toNat / 10 % 10 ∧
      (t.mem.read (s.i.toNat + 2)).toNat = (s.getV x).toNat % 10 ∧
      SameMemoryOutside s.i.toNat 3 s t ∧ t = { s with mem := t.mem }

/-- 47_familyF_timers_memory.md, rule of FX55 (range check: the spec's decision D4): V[0] to V[X] stand at I to I + X,
every other byte reads as before, I is I + X + 1, and nothing else changes. Memory canonical, an invariant of its
own. -/
def Obligations.StoreRegistersToMemory : Prop :=
  ∀ (x : RegIdx) (s : State), s.mem.wf = true → s.i.toNat + x.val ≤ 0xFFF →
    ∃ t, exec (.ldMemVx x) s = .next t ∧
      (∀ k : RegIdx, k ≤ x → t.mem.read (s.i.toNat + k.val) = s.getV k) ∧
      SameMemoryOutside s.i.toNat (x.val + 1) s t ∧
      t.i.toNat = s.i.toNat + x.val + 1 ∧ t = { s with mem := t.mem, i := t.i }

/-- 47_familyF_timers_memory.md, rule of FX65 (range check: the spec's decision D4): V[0] to V[X] are the bytes at I to
I + X, the registers above X, memory and everything else but I = I + X + 1 are unchanged. -/
def Obligations.LoadRegistersFromMemory : Prop :=
  ∀ (x : RegIdx) (s : State), s.i.toNat + x.val ≤ 0xFFF →
    ∃ t, exec (.ldVxMem x) s = .next t ∧
      (∀ k : RegIdx, k ≤ x → t.getV k = s.mem.read (s.i.toNat + k.val)) ∧
      (∀ k : RegIdx, x < k → t.getV k = s.getV k) ∧
      t.i.toNat = s.i.toNat + x.val + 1 ∧ t = { s with v := t.v, i := t.i } ∧ SameMemory s t

/-- 47_familyF_timers_memory.md and 20_memory.md: what FX55 stores, FX65 from the same address loads back, through
any registers in between (range check: the spec's decision D4). Memory canonical. -/
def Obligations.LoadAfterStoreGivesRegistersBack : Prop :=
  ∀ (x : RegIdx) (s : State) (v' : Vector Byte 16), s.mem.wf = true → s.i.toNat + x.val ≤ 0xFFF →
    ∃ t u, exec (.ldMemVx x) s = .next t ∧ exec (.ldVxMem x) { t with i := s.i, v := v' } = .next u ∧
      (∀ k : RegIdx, k ≤ x → u.getV k = s.getV k) ∧ u.mem = t.mem ∧ u.i = t.i

/-! ## The step -/

/-- 40_step_and_dispatch.md: when no fault is recorded, PC is at most 0xFFE and the two bytes at PC decode to i, the
step is exec of i on the state with PC advanced by 2, and then, unless i raised, one decrement of each nonzero timer
and the tone (the tone: D22; a raise ends the step: D1). -/
def Obligations.StepRunsDecodedInstruction : Prop :=
  ∀ (s t : State) (i : Instr), s.fault = none → s.pc.toNat ≤ 0xFFE →
    decode [s.mem.read s.pc.toNat, s.mem.read (s.pc.toNat + 1)] = .ok (i, []) →
    exec i { s with pc := s.pc + 2 } = .next t →
    i.wellFormed = true ∧
    (t.fault = none → step s = .next { t with
      dt := if t.dt = 0 then 0 else t.dt - 1
      st := if t.st = 0 then 0 else t.st - 1
      tone := decide (t.st ≠ 0) }) ∧
    (t.fault ≠ none → step s = .next t)

/-- The model's step is total: from every state, faulted or not, it answers a next state, and so does every
instruction (30_encoding.md: no illegal encoding; 60_exceptions.md: a fault is a state of the machine, the spec's
decision D1, log entry 1). -/
def Obligations.StepAlwaysAnswersNext : Prop :=
  (∀ s : State, ∃ t, step s = .next t) ∧ (∀ (i : Instr) (s : State), ∃ t, exec i s = .next t)

/-- 40_step_and_dispatch.md (the spec's decision D17): a step of a faulted machine changes nothing and outputs tone
false. -/
def Obligations.FaultedStepChangesNothing : Prop :=
  ∀ s : State, s.fault ≠ none → step s = .next { s with tone := false }

/-- 40_step_and_dispatch.md (the spec's decision D2): a step with PC above 0xFFE raises PcOutOfRange(PC), fetches
nothing and changes nothing else. -/
def Obligations.FetchBeyondMemoryFaults : Prop :=
  ∀ s : State, s.fault = none → s.pc.toNat > 0xFFE →
    step s = .next { s with fault := some ⟨.pcOutOfRange, s.pc.toNat, s.pc⟩, tone := false }

/-- 41_family0_1_2_control.md (the spec's decisions D5 and D6): a call with SP = 15 raises StackOverflow(15) and a
return with SP = 0 raises StackUnderflow(0); the step leaves no trace but the fault record. -/
def Obligations.StackBoundsFault : Prop :=
  ∀ s : State, s.canFetch →
    (∀ nnn, decodeWord s.fetchWord = .call nnn → s.sp = 15 →
      step s = .next { s with fault := some ⟨.stackOverflow, 15, s.pc⟩, tone := false }) ∧
    (∀ x, decodeWord s.fetchWord = .ret x → s.sp = 0 →
      step s = .next { s with fault := some ⟨.stackUnderflow, 0, s.pc⟩, tone := false })

/-- 20_memory.md, 45_familyD_sprite.md and 47_familyF_timers_memory.md (the spec's decision D4): FX33, FX55, FX65 and
DXYN that would reach an address of 0x1000 or more raise MemoryOutOfRange with the lowest such address,
max(I, 0x1000); the step leaves no trace but the fault record. -/
def Obligations.TransferBeyondMemoryFaults : Prop :=
  ∀ s t : State, s.canFetch →
    t = { s with fault := some ⟨.memoryOutOfRange, max s.i.toNat 0x1000, s.pc⟩, tone := false } →
    (∀ x, decodeWord s.fetchWord = .ldBVx x → s.i.toNat + 2 > 0xFFF → step s = .next t) ∧
    (∀ x : RegIdx, decodeWord s.fetchWord = .ldMemVx x → s.i.toNat + x.val > 0xFFF → step s = .next t) ∧
    (∀ x : RegIdx, decodeWord s.fetchWord = .ldVxMem x → s.i.toNat + x.val > 0xFFF → step s = .next t) ∧
    (∀ (x y : RegIdx) (n : Nibble), decodeWord s.fetchWord = .drw x y n → 0 < n.toNat →
      s.i.toNat + n.toNat > 0x1000 → step s = .next t)

/-- 46_familyE_keys.md (the spec's decision D7): EX9E and EXA1 with V[X] above 15 raise KeyIndexOutOfRange(V[X]); the
step leaves no trace but the fault record. -/
def Obligations.KeyIndexAbove15Faults : Prop :=
  ∀ (x : RegIdx) (s : State), s.canFetch → 15 < (s.getV x).toNat →
    decodeWord s.fetchWord = .skp x ∨ decodeWord s.fetchWord = .sknp x →
    step s = .next { s with fault := some ⟨.keyIndexOutOfRange, (s.getV x).toNat, s.pc⟩, tone := false }

/-- 60_exceptions.md (the spec's decision D1): faults are precise. Whatever instruction raises, the state after the
step is the state before it with the fault record set and the tone false; the record holds the instruction's own
address and the kind's cause and info. -/
def Obligations.FaultsArePrecise : Prop :=
  ∀ (s t : State) (r : FaultRecord), s.fault = none → step s = .next t → t.fault = some r →
    t = { s with fault := some r, tone := false } ∧ r.explains t = true

/-- 60_exceptions.md, the table of fault kinds (codes and causes are the spec's decisions D1, D2, D4 to D7): an
instruction that raises raises the kind the table lists for it, and an instruction the table does not list never
raises. -/
def Obligations.OnlyListedInstructionsRaise : Prop :=
  ∀ (i : Instr) (s t : State) (r : FaultRecord), s.fault = none → exec i s = .next t → t.fault = some r →
    raisedBy i = some r.kind

/-- 40_step_and_dispatch.md (tone: the spec's decision D22): a step that does not fault decrements DT once if it was
above 0, unless its instruction wrote DT, likewise ST, and its tone is true exactly when it found ST above 0. -/
def Obligations.NonFaultingStepTicksTimers : Prop :=
  ∀ s t : State, s.fault = none → step s = .next t → t.fault = none →
    ((∀ x, decodeWord s.fetchWord ≠ .ldDtVx x) → t.dt.toNat = s.dt.toNat - 1) ∧
    ((∀ x, decodeWord s.fetchWord ≠ .ldStVx x) →
      t.st.toNat = s.st.toNat - 1 ∧ (t.tone = true ↔ 0 < s.st.toNat))

/-- 40_step_and_dispatch.md, the cases the fetch-bound rule lists (derived there; D2), corrected for odd addresses (log
entry 14): the only steps that leave PC above 0xFFE without a fault are the advance from 0xFFD or 0xFFE, a skip at
0xFFB or above, a jump or call to 0xFFF, an indexed jump beyond 0xFFE, and a return to an address beyond it. -/
def Obligations.PcLeavesMemoryOnlyByListedCases : Prop :=
  ∀ s t : State, s.canFetch → step s = .next t → t.fault = none → t.pc.toNat > 0xFFE →
    0xFFD ≤ s.pc.toNat ∨
    (0xFFB ≤ s.pc.toNat ∧ isSkip (decodeWord s.fetchWord) = true) ∨
    decodeWord s.fetchWord = .jp 0xFFF ∨ decodeWord s.fetchWord = .call 0xFFF ∨
    (∃ nnn, decodeWord s.fetchWord = .jpV0 nnn ∧ nnn.toNat + (s.getV 0).toNat > 0xFFE) ∨
    (∃ x, decodeWord s.fetchWord = .ret x ∧ (s.stack[s.sp.val]).toNat > 0xFFE)

/-! ## Whole-machine rules: who writes what -/

/-- R32: the keypad is 16 booleans, read-only to the engine: no instruction and no step writes it; only EX9E, EXA1 and
FX0A read it, so that any other instruction does the same whatever it holds; the host writes a key between steps and
nothing else with it; it is all false at reset. -/
def Obligations.KeypadIsReadOnlyToEngine : Prop :=
  (∀ (i : Instr) (s t : State), exec i s = .next t → t.keypad = s.keypad) ∧
  (∀ s t : State, step s = .next t → t.keypad = s.keypad) ∧
  (∀ (i : Instr) (s t : State) (keys : Vector Bool 16), exec i s = .next t →
    (∀ x, i ≠ .skp x) → (∀ x, i ≠ .sknp x) → (∀ x, i ≠ .ldVxK x) →
    exec i { s with keypad := keys } = .next { t with keypad := keys }) ∧
  (∀ (k : Fin 16) (pressed : Bool) (s : State),
    (s.setKey k pressed).keypad[k.val] = pressed ∧
    (∀ j : Fin 16, j ≠ k → (s.setKey k pressed).keypad[j.val] = s.keypad[j.val]) ∧
    s.setKey k pressed = { s with keypad := (s.setKey k pressed).keypad }) ∧
  (∀ k : Fin 16, State.reset.keypad[k.val] = false)

/-- 10_state.md, rules of the framebuffer and of the draw-flag: 00E0 and DXYN are the only instructions that write the
framebuffer or set the draw-flag, and no step clears it. -/
def Obligations.OnlyClearAndDrawTouchScreen : Prop :=
  (∀ (i : Instr) (s t : State), exec i s = .next t → (∀ x, i ≠ .cls x) → (∀ x y n, i ≠ .drw x y n) →
    t.fb = s.fb ∧ t.drawFlag = s.drawFlag) ∧
  (∀ s t : State, step s = .next t → s.drawFlag = true → t.drawFlag = true)

/-- 20_memory.md, table of the instructions that access memory: FX33 and FX55 are the only instructions that change a
byte of memory, and a step changes none outside the bytes its instruction stores to. -/
def Obligations.OnlyStoresWriteMemory : Prop :=
  (∀ (i : Instr) (s t : State), exec i s = .next t → (∀ x, i ≠ .ldBVx x) → (∀ x, i ≠ .ldMemVx x) →
    SameMemory s t) ∧
  (∀ s t : State, step s = .next t →
    ∀ a : Nat, t.mem.read a ≠ s.mem.read a →
      (∃ x, decodeWord s.fetchWord = .ldBVx x ∧ s.i.toNat ≤ a ∧ a < s.i.toNat + 3 ∧ a < 0x1000) ∨
      (∃ x : RegIdx, decodeWord s.fetchWord = .ldMemVx x ∧ s.i.toNat ≤ a ∧ a ≤ s.i.toNat + x.val ∧ a < 0x1000))

/-- 10_state.md, rules of the stack and table of control-like state: only 2NNN writes a stack slot, only 2NNN and 00EE
change SP, and slot 0 is never written by a call (the stop at SP = 15 is the spec's decision D5). -/
def Obligations.OnlyCallAndReturnMoveStack : Prop :=
  ∀ (i : Instr) (s t : State), exec i s = .next t →
    ((∀ nnn, i ≠ .call nnn) → t.stack = s.stack) ∧
    ((∀ nnn, i ≠ .call nnn) → (∀ x, i ≠ .ret x) → t.sp = s.sp) ∧
    t.stack[0] = s.stack[0]

/-- 10_state.md, the table of writers of the general registers (derived there): a register that an instruction changes
is its destination X, VF for a flag-writing instruction, or one of V0 to VX for FX65. -/
def Obligations.OnlyListedRegistersWritten : Prop :=
  ∀ (i : Instr) (s t : State) (r : RegIdx), exec i s = .next t → t.getV r ≠ s.getV r → regWritten i r = true

/-- 10_state.md, rules of I, DT, ST and the latch (the latch is the spec's decision D14, log entry 9): I is written by
ANNN, FX1E, FX29, FX55 and FX65 only, DT by FX15, ST by FX18, the latch by FX0A. The last clause is about the model's
own draw index, a DESIGN CHOICE (log entry 3, over the spec's free draw D13): only CXNN advances it. -/
def Obligations.OnlyListedInstructionsWriteSpecialRegisters : Prop :=
  ∀ (i : Instr) (s t : State), exec i s = .next t →
    (writesI i = false → t.i = s.i) ∧
    ((∀ x, i ≠ .ldDtVx x) → t.dt = s.dt) ∧ ((∀ x, i ≠ .ldStVx x) → t.st = s.st) ∧
    ((∀ x, i ≠ .ldVxK x) → t.keyWait = s.keyWait) ∧ ((∀ x nn, i ≠ .rnd x nn) → t.draws = s.draws)

/-! ## Invariants -/

/-- The reset state meets the invariant. -/
def Obligations.ResetMeetsInvariant : Prop := State.reset.inv = true

/-- Every step keeps the invariant, from every state that meets it: memory canonical, PC at most 0x10FE, no stack slot
above 0x1000, slot 0 zero, and a fault record that explains itself (derived from 40_step_and_dispatch.md,
41_family0_1_2_control.md and 60_exceptions.md; D1, D2, D4 to D7). -/
def Obligations.StepKeepsInvariant : Prop :=
  ∀ s t : State, s.inv = true → step s = .next t → t.inv = true

/-- Every run of steps and host actions from a state that meets the invariant ends in a next state that meets it: no
run ever stops outside the machine (40_step_and_dispatch.md on runs; the fault as a state is D1, log entry 1). -/
def Obligations.RunsKeepInvariant : Prop :=
  ∀ (es : List Event) (s : State), s.inv = true → ∃ t, runEvents es s = .next t ∧ t.inv = true

/-- 60_exceptions.md (D17): once a fault is recorded, a run without `reset()` keeps the record, PC, the registers, the
stack, the timers and the framebuffer as they are, whatever else the host does. -/
def Obligations.FaultLastsUntilReset : Prop :=
  ∀ (es : List Event) (s t : State), s.fault ≠ none → Event.host .reset ∉ es → runEvents es s = .next t →
    t.fault = s.fault ∧
    t = { s with mem := t.mem, keypad := t.keypad, drawFlag := t.drawFlag, tone := t.tone }

/-! ## Reset and load -/

/-- 70_reset_and_hazards.md and 10_state.md (the font's bytes: the spec's decision D10, log entry 4; reset at any time:
D16; the draw index is the model's own, log entry 3): reset leaves memory zero but for the font, PC = 0x200,
everything else zero or false, from any state, also a faulted one. -/
def Obligations.ResetState : Prop :=
  ∀ s : State,
    (∀ a : Nat, s.hostReset.mem.read a = if a < 80 then Config.font.getD a 0 else 0) ∧
    (∀ r : RegIdx, s.hostReset.getV r = 0) ∧ s.hostReset.i = 0 ∧ s.hostReset.pc.toNat = 0x200 ∧
    (∀ k : Fin 16, s.hostReset.stack[k.val] = 0) ∧ s.hostReset.sp = 0 ∧
    s.hostReset.dt = 0 ∧ s.hostReset.st = 0 ∧ (∀ px py, s.hostReset.fb.cell px py = false) ∧
    (∀ k : Fin 16, s.hostReset.keypad[k.val] = false) ∧
    s.hostReset.drawFlag = false ∧ s.hostReset.keyWait = false ∧ s.hostReset.fault = none ∧
    s.hostReset = { State.reset with draws := s.draws }

/-- R292: a load of at most 3584 bytes succeeds, puts byte k at 0x200 + k, leaves every other byte as it was, and
changes nothing else. Memory canonical, an invariant of its own. -/
def Obligations.LoadCopiesRom : Prop :=
  ∀ (s : State) (bytes : List Byte), s.mem.wf = true → bytes.length ≤ 3584 →
    ∃ t, s.load bytes = .ok t ∧
      (∀ k (h : k < bytes.length), t.mem.read (0x200 + k) = bytes[k]) ∧
      SameMemoryOutside 0x200 bytes.length s t ∧ t = { s with mem := t.mem } ∧
      (bytes = [] → t = s)

/-- R293: a load of more than 3584 bytes fails with RomTooLarge and changes no field of the state. -/
def Obligations.LoadRefusesLargeRom : Prop :=
  ∀ (s : State) (bytes : List Byte), bytes.length > 3584 →
    s.load bytes = .error .romTooLarge ∧ (HostAction.load bytes).apply s = s
end

