-- ==== Sys2Proof/Laws/Decode.lean ====
section
/-! SUPPORT. The fields of a packed word, and the byte order of a word. -/

namespace Sys2Proof

/-! ## Fields as arithmetic on the word -/

theorem opField_toNat (w : Word) : (opField w).toNat = w.toNat / 4096 := by
  have := w.isLt
  simp [opField, Nat.shiftRight_eq_div_pow]
  omega

theorem xField_val (w : Word) : (xField w).val = w.toNat / 256 % 16 := by
  simp [xField, Nat.shiftRight_eq_div_pow]

theorem xBits_toNat (w : Word) : (xBits w).toNat = w.toNat / 256 % 16 := by
  simp [xBits, Nat.shiftRight_eq_div_pow]

theorem yField_val (w : Word) : (yField w).val = w.toNat / 16 % 16 := by
  simp [yField, Nat.shiftRight_eq_div_pow]

theorem nnnField_toNat (w : Word) : (nnnField w).toNat = w.toNat % 4096 := by
  simp [nnnField]

theorem nnField_toNat (w : Word) : (nnField w).toNat = w.toNat % 256 := by
  simp [nnField]

theorem nField_toNat (w : Word) : (nField w).toNat = w.toNat % 16 := by
  simp [nField]

/-! ## Packed words -/

theorem packXNN_toNat (op : Nibble) (x : RegIdx) (nn : Byte) :
    (packXNN op x nn).toNat = op.toNat * 4096 + x.val * 256 + nn.toNat := by
  have := op.isLt
  have := x.isLt
  have := nn.isLt
  simp only [packXNN, trunc16_toNat]
  omega

theorem packXYN_toNat (op : Nibble) (x y : RegIdx) (n : Nibble) :
    (packXYN op x y n).toNat = op.toNat * 4096 + x.val * 256 + y.val * 16 + n.toNat := by
  have := op.isLt
  have := x.isLt
  have := y.isLt
  have := n.isLt
  simp only [packXYN, trunc16_toNat]
  omega

theorem packNNN_toNat (op : Nibble) (nnn : Imm12) : (packNNN op nnn).toNat = op.toNat * 4096 + nnn.toNat := by
  have := op.isLt
  have := nnn.isLt
  simp only [packNNN, trunc16_toNat]
  omega

@[simp] theorem opField_packXNN (op : Nibble) (x : RegIdx) (nn : Byte) : opField (packXNN op x nn) = op := by
  have := op.isLt
  have := x.isLt
  have := nn.isLt
  apply BitVec.eq_of_toNat_eq
  rw [opField_toNat, packXNN_toNat]
  omega

@[simp] theorem xField_packXNN (op : Nibble) (x : RegIdx) (nn : Byte) : xField (packXNN op x nn) = x := by
  have := x.isLt
  have := nn.isLt
  apply Fin.ext
  rw [xField_val, packXNN_toNat]
  omega

@[simp] theorem nnField_packXNN (op : Nibble) (x : RegIdx) (nn : Byte) : nnField (packXNN op x nn) = nn := by
  have := nn.isLt
  apply BitVec.eq_of_toNat_eq
  rw [nnField_toNat, packXNN_toNat]
  omega

@[simp] theorem opField_packXYN (op : Nibble) (x y : RegIdx) (n : Nibble) : opField (packXYN op x y n) = op := by
  have := op.isLt
  have := x.isLt
  have := y.isLt
  have := n.isLt
  apply BitVec.eq_of_toNat_eq
  rw [opField_toNat, packXYN_toNat]
  omega

@[simp] theorem xField_packXYN (op : Nibble) (x y : RegIdx) (n : Nibble) : xField (packXYN op x y n) = x := by
  have := x.isLt
  have := y.isLt
  have := n.isLt
  apply Fin.ext
  rw [xField_val, packXYN_toNat]
  omega

@[simp] theorem yField_packXYN (op : Nibble) (x y : RegIdx) (n : Nibble) : yField (packXYN op x y n) = y := by
  have := y.isLt
  have := n.isLt
  apply Fin.ext
  rw [yField_val, packXYN_toNat]
  omega

@[simp] theorem nField_packXYN (op : Nibble) (x y : RegIdx) (n : Nibble) : nField (packXYN op x y n) = n := by
  have := n.isLt
  apply BitVec.eq_of_toNat_eq
  rw [nField_toNat, packXYN_toNat]
  omega

@[simp] theorem opField_packNNN (op : Nibble) (nnn : Imm12) : opField (packNNN op nnn) = op := by
  have := op.isLt
  have := nnn.isLt
  apply BitVec.eq_of_toNat_eq
  rw [opField_toNat, packNNN_toNat]
  omega

@[simp] theorem nnnField_packNNN (op : Nibble) (nnn : Imm12) : nnnField (packNNN op nnn) = nnn := by
  have := nnn.isLt
  apply BitVec.eq_of_toNat_eq
  rw [nnnField_toNat, packNNN_toNat]
  omega

@[simp] theorem nnField_packNNN (op : Nibble) (nnn : Imm12) :
    nnField (packNNN op nnn) = nnn.extractLsb' 0 8 := by
  apply BitVec.eq_of_toNat_eq
  rw [nnField_toNat, packNNN_toNat]
  simp
  omega

/-! ## Words packed again from their fields -/

theorem packXNN_fields (w : Word) : packXNN (opField w) (xField w) (nnField w) = w := by
  have := w.isLt
  apply BitVec.eq_of_toNat_eq
  rw [packXNN_toNat, opField_toNat, xField_val, nnField_toNat]
  omega

theorem packXYN_fields (w : Word) : packXYN (opField w) (xField w) (yField w) (nField w) = w := by
  have := w.isLt
  apply BitVec.eq_of_toNat_eq
  rw [packXYN_toNat, opField_toNat, xField_val, yField_val, nField_toNat]
  omega

theorem packNNN_fields (w : Word) : packNNN (opField w) (nnnField w) = w := by
  have := w.isLt
  apply BitVec.eq_of_toNat_eq
  rw [packNNN_toNat, opField_toNat, nnnField_toNat]
  omega

/-! ## Bytes -/

/-- The word of a word's two bytes is that word (R53). -/
theorem wordOfBytes_bytesOfWord (w : Word) : wordOfBytes (trunc8 (w.toNat / 256)) (trunc8 w.toNat) = w := by
  have := w.isLt
  apply BitVec.eq_of_toNat_eq
  simp only [wordOfBytes, trunc16_toNat, trunc8_toNat]
  omega

theorem wordOfBytes_toNat (hi lo : Byte) : (wordOfBytes hi lo).toNat = hi.toNat * 256 + lo.toNat := by
  have := hi.isLt
  have := lo.isLt
  simp only [wordOfBytes, trunc16_toNat]
  omega

/-- The decoder reads a word's bytes as the word, and leaves the bytes after it (R70, R80). -/
theorem decode_bytesOfWord (w : Word) (rest : List Byte) :
    decode (bytesOfWord w ++ rest) = .ok (decodeWord w, rest) := by
  simp only [bytesOfWord, List.cons_append, List.nil_append, decode, wordOfBytes_bytesOfWord]

/-- A table word of 16 bits decodes as itself. -/
theorem decodeTableWord_eq (w : Word) : decodeTableWord 16 w.toNat = some (decodeWord w) := by
  have h : trunc16 (w.toNat % 2 ^ 16) = w := by
    apply BitVec.eq_of_toNat_eq
    have := w.isLt
    simp only [trunc16_toNat]
    omega
  have := decode_bytesOfWord w []
  simp only [List.append_nil] at this
  simp only [decodeTableWord, h, this]

end Sys2Proof
end

