-- ==== Sys2Proof/Laws/State.lean ====
section
/-! SUPPORT. One lemma per field per update of State, and the laws of registers and of the operations that only
update fields. -/

namespace Sys2Proof.Machine

/-! ## `State.setV` -/

@[simp] theorem setV_mem (s : State) (x : RegIdx) (b : Byte) : (s.setV x b).mem = s.mem := rfl
@[simp] theorem setV_v (s : State) (x : RegIdx) (b : Byte) : (s.setV x b).v = s.v.set x.val b := rfl
@[simp] theorem setV_i (s : State) (x : RegIdx) (b : Byte) : (s.setV x b).i = s.i := rfl
@[simp] theorem setV_pc (s : State) (x : RegIdx) (b : Byte) : (s.setV x b).pc = s.pc := rfl
@[simp] theorem setV_stack (s : State) (x : RegIdx) (b : Byte) : (s.setV x b).stack = s.stack := rfl
@[simp] theorem setV_sp (s : State) (x : RegIdx) (b : Byte) : (s.setV x b).sp = s.sp := rfl
@[simp] theorem setV_dt (s : State) (x : RegIdx) (b : Byte) : (s.setV x b).dt = s.dt := rfl
@[simp] theorem setV_st (s : State) (x : RegIdx) (b : Byte) : (s.setV x b).st = s.st := rfl
@[simp] theorem setV_fb (s : State) (x : RegIdx) (b : Byte) : (s.setV x b).fb = s.fb := rfl
@[simp] theorem setV_keypad (s : State) (x : RegIdx) (b : Byte) : (s.setV x b).keypad = s.keypad := rfl
@[simp] theorem setV_drawFlag (s : State) (x : RegIdx) (b : Byte) : (s.setV x b).drawFlag = s.drawFlag := rfl
@[simp] theorem setV_keyWait (s : State) (x : RegIdx) (b : Byte) : (s.setV x b).keyWait = s.keyWait := rfl
@[simp] theorem setV_fault (s : State) (x : RegIdx) (b : Byte) : (s.setV x b).fault = s.fault := rfl
@[simp] theorem setV_tone (s : State) (x : RegIdx) (b : Byte) : (s.setV x b).tone = s.tone := rfl
@[simp] theorem setV_draws (s : State) (x : RegIdx) (b : Byte) : (s.setV x b).draws = s.draws := rfl

/-! ## `State.raiseAt` -/

@[simp] theorem raiseAt_mem (s : State) (a : Word) (k : Fault) (n : Nat) : (s.raiseAt a k n).mem = s.mem := rfl
@[simp] theorem raiseAt_v (s : State) (a : Word) (k : Fault) (n : Nat) : (s.raiseAt a k n).v = s.v := rfl
@[simp] theorem raiseAt_i (s : State) (a : Word) (k : Fault) (n : Nat) : (s.raiseAt a k n).i = s.i := rfl
@[simp] theorem raiseAt_pc (s : State) (a : Word) (k : Fault) (n : Nat) : (s.raiseAt a k n).pc = a := rfl
@[simp] theorem raiseAt_stack (s : State) (a : Word) (k : Fault) (n : Nat) : (s.raiseAt a k n).stack = s.stack := rfl
@[simp] theorem raiseAt_sp (s : State) (a : Word) (k : Fault) (n : Nat) : (s.raiseAt a k n).sp = s.sp := rfl
@[simp] theorem raiseAt_dt (s : State) (a : Word) (k : Fault) (n : Nat) : (s.raiseAt a k n).dt = s.dt := rfl
@[simp] theorem raiseAt_st (s : State) (a : Word) (k : Fault) (n : Nat) : (s.raiseAt a k n).st = s.st := rfl
@[simp] theorem raiseAt_fb (s : State) (a : Word) (k : Fault) (n : Nat) : (s.raiseAt a k n).fb = s.fb := rfl
@[simp] theorem raiseAt_keypad (s : State) (a : Word) (k : Fault) (n : Nat) : (s.raiseAt a k n).keypad = s.keypad := rfl
@[simp] theorem raiseAt_drawFlag (s : State) (a : Word) (k : Fault) (n : Nat) : (s.raiseAt a k n).drawFlag = s.drawFlag := rfl
@[simp] theorem raiseAt_keyWait (s : State) (a : Word) (k : Fault) (n : Nat) : (s.raiseAt a k n).keyWait = s.keyWait := rfl
@[simp] theorem raiseAt_fault (s : State) (a : Word) (k : Fault) (n : Nat) : (s.raiseAt a k n).fault = some ⟨k, n, a⟩ := rfl
@[simp] theorem raiseAt_tone (s : State) (a : Word) (k : Fault) (n : Nat) : (s.raiseAt a k n).tone = false := rfl
@[simp] theorem raiseAt_draws (s : State) (a : Word) (k : Fault) (n : Nat) : (s.raiseAt a k n).draws = s.draws := rfl

/-! ## `State.raise` -/

@[simp] theorem raise_mem (s : State) (k : Fault) (n : Nat) : (s.raise k n).mem = s.mem := rfl
@[simp] theorem raise_v (s : State) (k : Fault) (n : Nat) : (s.raise k n).v = s.v := rfl
@[simp] theorem raise_i (s : State) (k : Fault) (n : Nat) : (s.raise k n).i = s.i := rfl
@[simp] theorem raise_pc (s : State) (k : Fault) (n : Nat) : (s.raise k n).pc = s.pc - 2 := rfl
@[simp] theorem raise_stack (s : State) (k : Fault) (n : Nat) : (s.raise k n).stack = s.stack := rfl
@[simp] theorem raise_sp (s : State) (k : Fault) (n : Nat) : (s.raise k n).sp = s.sp := rfl
@[simp] theorem raise_dt (s : State) (k : Fault) (n : Nat) : (s.raise k n).dt = s.dt := rfl
@[simp] theorem raise_st (s : State) (k : Fault) (n : Nat) : (s.raise k n).st = s.st := rfl
@[simp] theorem raise_fb (s : State) (k : Fault) (n : Nat) : (s.raise k n).fb = s.fb := rfl
@[simp] theorem raise_keypad (s : State) (k : Fault) (n : Nat) : (s.raise k n).keypad = s.keypad := rfl
@[simp] theorem raise_drawFlag (s : State) (k : Fault) (n : Nat) : (s.raise k n).drawFlag = s.drawFlag := rfl
@[simp] theorem raise_keyWait (s : State) (k : Fault) (n : Nat) : (s.raise k n).keyWait = s.keyWait := rfl
@[simp] theorem raise_fault (s : State) (k : Fault) (n : Nat) : (s.raise k n).fault = some ⟨k, n, s.pc - 2⟩ := rfl
@[simp] theorem raise_tone (s : State) (k : Fault) (n : Nat) : (s.raise k n).tone = false := rfl
@[simp] theorem raise_draws (s : State) (k : Fault) (n : Nat) : (s.raise k n).draws = s.draws := rfl

/-! ## `State.skipIf` -/

@[simp] theorem skipIf_mem (s : State) (c : Bool) : (s.skipIf c).mem = s.mem := by cases c <;> rfl
@[simp] theorem skipIf_v (s : State) (c : Bool) : (s.skipIf c).v = s.v := by cases c <;> rfl
@[simp] theorem skipIf_i (s : State) (c : Bool) : (s.skipIf c).i = s.i := by cases c <;> rfl
@[simp] theorem skipIf_pc (s : State) (c : Bool) : (s.skipIf c).pc = if c then s.pc + 2 else s.pc := by cases c <;> rfl
@[simp] theorem skipIf_stack (s : State) (c : Bool) : (s.skipIf c).stack = s.stack := by cases c <;> rfl
@[simp] theorem skipIf_sp (s : State) (c : Bool) : (s.skipIf c).sp = s.sp := by cases c <;> rfl
@[simp] theorem skipIf_dt (s : State) (c : Bool) : (s.skipIf c).dt = s.dt := by cases c <;> rfl
@[simp] theorem skipIf_st (s : State) (c : Bool) : (s.skipIf c).st = s.st := by cases c <;> rfl
@[simp] theorem skipIf_fb (s : State) (c : Bool) : (s.skipIf c).fb = s.fb := by cases c <;> rfl
@[simp] theorem skipIf_keypad (s : State) (c : Bool) : (s.skipIf c).keypad = s.keypad := by cases c <;> rfl
@[simp] theorem skipIf_drawFlag (s : State) (c : Bool) : (s.skipIf c).drawFlag = s.drawFlag := by cases c <;> rfl
@[simp] theorem skipIf_keyWait (s : State) (c : Bool) : (s.skipIf c).keyWait = s.keyWait := by cases c <;> rfl
@[simp] theorem skipIf_fault (s : State) (c : Bool) : (s.skipIf c).fault = s.fault := by cases c <;> rfl
@[simp] theorem skipIf_tone (s : State) (c : Bool) : (s.skipIf c).tone = s.tone := by cases c <;> rfl
@[simp] theorem skipIf_draws (s : State) (c : Bool) : (s.skipIf c).draws = s.draws := by cases c <;> rfl

/-! ## `State.pushPc` -/

@[simp] theorem pushPc_mem (s : State) : (s.pushPc).mem = s.mem := rfl
@[simp] theorem pushPc_v (s : State) : (s.pushPc).v = s.v := rfl
@[simp] theorem pushPc_i (s : State) : (s.pushPc).i = s.i := rfl
@[simp] theorem pushPc_pc (s : State) : (s.pushPc).pc = s.pc := rfl
@[simp] theorem pushPc_stack (s : State) : (s.pushPc).stack = s.stack.set (s.sp + 1).val s.pc := rfl
@[simp] theorem pushPc_sp (s : State) : (s.pushPc).sp = s.sp + 1 := rfl
@[simp] theorem pushPc_dt (s : State) : (s.pushPc).dt = s.dt := rfl
@[simp] theorem pushPc_st (s : State) : (s.pushPc).st = s.st := rfl
@[simp] theorem pushPc_fb (s : State) : (s.pushPc).fb = s.fb := rfl
@[simp] theorem pushPc_keypad (s : State) : (s.pushPc).keypad = s.keypad := rfl
@[simp] theorem pushPc_drawFlag (s : State) : (s.pushPc).drawFlag = s.drawFlag := rfl
@[simp] theorem pushPc_keyWait (s : State) : (s.pushPc).keyWait = s.keyWait := rfl
@[simp] theorem pushPc_fault (s : State) : (s.pushPc).fault = s.fault := rfl
@[simp] theorem pushPc_tone (s : State) : (s.pushPc).tone = s.tone := rfl
@[simp] theorem pushPc_draws (s : State) : (s.pushPc).draws = s.draws := rfl

/-! ## `State.popPc` -/

@[simp] theorem popPc_mem (s : State) : (s.popPc).mem = s.mem := rfl
@[simp] theorem popPc_v (s : State) : (s.popPc).v = s.v := rfl
@[simp] theorem popPc_i (s : State) : (s.popPc).i = s.i := rfl
@[simp] theorem popPc_pc (s : State) : (s.popPc).pc = s.stack[s.sp.val] := rfl
@[simp] theorem popPc_stack (s : State) : (s.popPc).stack = s.stack := rfl
@[simp] theorem popPc_sp (s : State) : (s.popPc).sp = s.sp - 1 := rfl
@[simp] theorem popPc_dt (s : State) : (s.popPc).dt = s.dt := rfl
@[simp] theorem popPc_st (s : State) : (s.popPc).st = s.st := rfl
@[simp] theorem popPc_fb (s : State) : (s.popPc).fb = s.fb := rfl
@[simp] theorem popPc_keypad (s : State) : (s.popPc).keypad = s.keypad := rfl
@[simp] theorem popPc_drawFlag (s : State) : (s.popPc).drawFlag = s.drawFlag := rfl
@[simp] theorem popPc_keyWait (s : State) : (s.popPc).keyWait = s.keyWait := rfl
@[simp] theorem popPc_fault (s : State) : (s.popPc).fault = s.fault := rfl
@[simp] theorem popPc_tone (s : State) : (s.popPc).tone = s.tone := rfl
@[simp] theorem popPc_draws (s : State) : (s.popPc).draws = s.draws := rfl

/-! ## `State.advance` -/

@[simp] theorem advance_mem (s : State) : (s.advance).mem = s.mem := rfl
@[simp] theorem advance_v (s : State) : (s.advance).v = s.v := rfl
@[simp] theorem advance_i (s : State) : (s.advance).i = s.i := rfl
@[simp] theorem advance_pc (s : State) : (s.advance).pc = s.pc + 2 := rfl
@[simp] theorem advance_stack (s : State) : (s.advance).stack = s.stack := rfl
@[simp] theorem advance_sp (s : State) : (s.advance).sp = s.sp := rfl
@[simp] theorem advance_dt (s : State) : (s.advance).dt = s.dt := rfl
@[simp] theorem advance_st (s : State) : (s.advance).st = s.st := rfl
@[simp] theorem advance_fb (s : State) : (s.advance).fb = s.fb := rfl
@[simp] theorem advance_keypad (s : State) : (s.advance).keypad = s.keypad := rfl
@[simp] theorem advance_drawFlag (s : State) : (s.advance).drawFlag = s.drawFlag := rfl
@[simp] theorem advance_keyWait (s : State) : (s.advance).keyWait = s.keyWait := rfl
@[simp] theorem advance_fault (s : State) : (s.advance).fault = s.fault := rfl
@[simp] theorem advance_tone (s : State) : (s.advance).tone = s.tone := rfl
@[simp] theorem advance_draws (s : State) : (s.advance).draws = s.draws := rfl

/-! ## `State.tickTimers` -/

@[simp] theorem tickTimers_mem (s : State) : (s.tickTimers).mem = s.mem := rfl
@[simp] theorem tickTimers_v (s : State) : (s.tickTimers).v = s.v := rfl
@[simp] theorem tickTimers_i (s : State) : (s.tickTimers).i = s.i := rfl
@[simp] theorem tickTimers_pc (s : State) : (s.tickTimers).pc = s.pc := rfl
@[simp] theorem tickTimers_stack (s : State) : (s.tickTimers).stack = s.stack := rfl
@[simp] theorem tickTimers_sp (s : State) : (s.tickTimers).sp = s.sp := rfl
@[simp] theorem tickTimers_dt (s : State) : (s.tickTimers).dt = tickDown s.dt := rfl
@[simp] theorem tickTimers_st (s : State) : (s.tickTimers).st = tickDown s.st := rfl
@[simp] theorem tickTimers_fb (s : State) : (s.tickTimers).fb = s.fb := rfl
@[simp] theorem tickTimers_keypad (s : State) : (s.tickTimers).keypad = s.keypad := rfl
@[simp] theorem tickTimers_drawFlag (s : State) : (s.tickTimers).drawFlag = s.drawFlag := rfl
@[simp] theorem tickTimers_keyWait (s : State) : (s.tickTimers).keyWait = s.keyWait := rfl
@[simp] theorem tickTimers_fault (s : State) : (s.tickTimers).fault = s.fault := rfl
@[simp] theorem tickTimers_tone (s : State) : (s.tickTimers).tone = decide (s.st ≠ 0) := rfl
@[simp] theorem tickTimers_draws (s : State) : (s.tickTimers).draws = s.draws := rfl

/-! ## `State.stuck` -/

@[simp] theorem stuck_mem (s : State) : (s.stuck).mem = s.mem := rfl
@[simp] theorem stuck_v (s : State) : (s.stuck).v = s.v := rfl
@[simp] theorem stuck_i (s : State) : (s.stuck).i = s.i := rfl
@[simp] theorem stuck_pc (s : State) : (s.stuck).pc = s.pc := rfl
@[simp] theorem stuck_stack (s : State) : (s.stuck).stack = s.stack := rfl
@[simp] theorem stuck_sp (s : State) : (s.stuck).sp = s.sp := rfl
@[simp] theorem stuck_dt (s : State) : (s.stuck).dt = s.dt := rfl
@[simp] theorem stuck_st (s : State) : (s.stuck).st = s.st := rfl
@[simp] theorem stuck_fb (s : State) : (s.stuck).fb = s.fb := rfl
@[simp] theorem stuck_keypad (s : State) : (s.stuck).keypad = s.keypad := rfl
@[simp] theorem stuck_drawFlag (s : State) : (s.stuck).drawFlag = s.drawFlag := rfl
@[simp] theorem stuck_keyWait (s : State) : (s.stuck).keyWait = s.keyWait := rfl
@[simp] theorem stuck_fault (s : State) : (s.stuck).fault = s.fault := rfl
@[simp] theorem stuck_tone (s : State) : (s.stuck).tone = false := rfl
@[simp] theorem stuck_draws (s : State) : (s.stuck).draws = s.draws := rfl

/-! ## `State.setKey` -/

@[simp] theorem setKey_mem (s : State) (k : Fin 16) (p : Bool) : (s.setKey k p).mem = s.mem := rfl
@[simp] theorem setKey_v (s : State) (k : Fin 16) (p : Bool) : (s.setKey k p).v = s.v := rfl
@[simp] theorem setKey_i (s : State) (k : Fin 16) (p : Bool) : (s.setKey k p).i = s.i := rfl
@[simp] theorem setKey_pc (s : State) (k : Fin 16) (p : Bool) : (s.setKey k p).pc = s.pc := rfl
@[simp] theorem setKey_stack (s : State) (k : Fin 16) (p : Bool) : (s.setKey k p).stack = s.stack := rfl
@[simp] theorem setKey_sp (s : State) (k : Fin 16) (p : Bool) : (s.setKey k p).sp = s.sp := rfl
@[simp] theorem setKey_dt (s : State) (k : Fin 16) (p : Bool) : (s.setKey k p).dt = s.dt := rfl
@[simp] theorem setKey_st (s : State) (k : Fin 16) (p : Bool) : (s.setKey k p).st = s.st := rfl
@[simp] theorem setKey_fb (s : State) (k : Fin 16) (p : Bool) : (s.setKey k p).fb = s.fb := rfl
@[simp] theorem setKey_keypad (s : State) (k : Fin 16) (p : Bool) : (s.setKey k p).keypad = s.keypad.set k.val p := rfl
@[simp] theorem setKey_drawFlag (s : State) (k : Fin 16) (p : Bool) : (s.setKey k p).drawFlag = s.drawFlag := rfl
@[simp] theorem setKey_keyWait (s : State) (k : Fin 16) (p : Bool) : (s.setKey k p).keyWait = s.keyWait := rfl
@[simp] theorem setKey_fault (s : State) (k : Fin 16) (p : Bool) : (s.setKey k p).fault = s.fault := rfl
@[simp] theorem setKey_tone (s : State) (k : Fin 16) (p : Bool) : (s.setKey k p).tone = s.tone := rfl
@[simp] theorem setKey_draws (s : State) (k : Fin 16) (p : Bool) : (s.setKey k p).draws = s.draws := rfl

/-! ## `State.clearDrawFlag` -/

@[simp] theorem clearDrawFlag_mem (s : State) : (s.clearDrawFlag).mem = s.mem := rfl
@[simp] theorem clearDrawFlag_v (s : State) : (s.clearDrawFlag).v = s.v := rfl
@[simp] theorem clearDrawFlag_i (s : State) : (s.clearDrawFlag).i = s.i := rfl
@[simp] theorem clearDrawFlag_pc (s : State) : (s.clearDrawFlag).pc = s.pc := rfl
@[simp] theorem clearDrawFlag_stack (s : State) : (s.clearDrawFlag).stack = s.stack := rfl
@[simp] theorem clearDrawFlag_sp (s : State) : (s.clearDrawFlag).sp = s.sp := rfl
@[simp] theorem clearDrawFlag_dt (s : State) : (s.clearDrawFlag).dt = s.dt := rfl
@[simp] theorem clearDrawFlag_st (s : State) : (s.clearDrawFlag).st = s.st := rfl
@[simp] theorem clearDrawFlag_fb (s : State) : (s.clearDrawFlag).fb = s.fb := rfl
@[simp] theorem clearDrawFlag_keypad (s : State) : (s.clearDrawFlag).keypad = s.keypad := rfl
@[simp] theorem clearDrawFlag_drawFlag (s : State) : (s.clearDrawFlag).drawFlag = false := rfl
@[simp] theorem clearDrawFlag_keyWait (s : State) : (s.clearDrawFlag).keyWait = s.keyWait := rfl
@[simp] theorem clearDrawFlag_fault (s : State) : (s.clearDrawFlag).fault = s.fault := rfl
@[simp] theorem clearDrawFlag_tone (s : State) : (s.clearDrawFlag).tone = s.tone := rfl
@[simp] theorem clearDrawFlag_draws (s : State) : (s.clearDrawFlag).draws = s.draws := rfl

/-! ## Registers -/

@[simp] theorem getV_setV_same (s : State) (x : RegIdx) (b : Byte) : (s.setV x b).getV x = b := by
  simp [State.getV, State.setV]

theorem getV_setV_ne (s : State) (b : Byte) {x r : RegIdx} (h : r ≠ x) : (s.setV x b).getV r = s.getV r := by
  have hne : x.val ≠ r.val := fun e => h (Fin.ext e.symm)
  simp [State.getV, State.setV, hne]

/-- A register after a write. -/
theorem getV_setV (s : State) (x r : RegIdx) (b : Byte) : (s.setV x b).getV r = if r = x then b else s.getV r := by
  split
  · next h => subst h; simp
  · next h => exact getV_setV_ne s b h

/-- Two states with the same register file agree on every register. -/
theorem getV_congr {s t : State} (h : t.v = s.v) (r : RegIdx) : t.getV r = s.getV r := by
  simp [State.getV, h]

@[simp] theorem getV_skipIf (s : State) (c : Bool) (r : RegIdx) : (s.skipIf c).getV r = s.getV r :=
  getV_congr (skipIf_v s c) r

@[simp] theorem getV_raise (s : State) (k : Fault) (n : Nat) (r : RegIdx) : (s.raise k n).getV r = s.getV r := rfl

@[simp] theorem getV_advance (s : State) (r : RegIdx) : s.advance.getV r = s.getV r := rfl

@[simp] theorem getV_tickTimers (s : State) (r : RegIdx) : s.tickTimers.getV r = s.getV r := rfl

/-- A skip changes PC only. -/
theorem skipIf_eq (s : State) (c : Bool) : s.skipIf c = { s with pc := if c then s.pc + 2 else s.pc } := by
  cases c <;> rfl

/-- The flag ends in VF, whatever X is (R151). -/
@[simp] theorem setResultAndFlag_vf (s : State) (x : RegIdx) (r : Byte) (f : Bool) :
    (s.setResultAndFlag x r f).getV 15 = flagByte f := by
  simp [State.setResultAndFlag]

/-- The result ends in V[X] when X is not F (R151). -/
theorem setResultAndFlag_result (s : State) (r : Byte) (f : Bool) {x : RegIdx} (h : x ≠ 15) :
    (s.setResultAndFlag x r f).getV x = r := by
  simp [State.setResultAndFlag, getV_setV, h]

/-- Every register but V[X] and VF keeps its value. -/
theorem setResultAndFlag_other (s : State) (r : Byte) (f : Bool) {x q : RegIdx} (hx : q ≠ x) (hf : q ≠ 15) :
    (s.setResultAndFlag x r f).getV q = s.getV q := by
  simp [State.setResultAndFlag, getV_setV, hx, hf]

/-- A result with a flag changes the register file only. -/
theorem setResultAndFlag_frame (s : State) (x : RegIdx) (r : Byte) (f : Bool) :
    s.setResultAndFlag x r f = { s with v := (s.setResultAndFlag x r f).v } := rfl

@[simp] theorem flagByte_toNat (f : Bool) : (flagByte f).toNat = if f then 1 else 0 := by
  cases f <;> rfl

/-! ## What the shared updates leave alone -/

/-- A register write changes that register only. -/
theorem setV_onlyReg (s : State) (x : RegIdx) (b : Byte) : OnlyReg x s (s.setV x b) :=
  ⟨rfl, fun _ h => getV_setV_ne s b h, fun _ => rfl⟩

/-- A result with a flag changes V[X] and VF only. -/
theorem setResultAndFlag_onlyRegAndFlag (s : State) (x : RegIdx) (r : Byte) (f : Bool) :
    OnlyRegAndFlag x s (s.setResultAndFlag x r f) :=
  ⟨rfl, fun _ hx hf => setResultAndFlag_other s r f hx hf, fun _ => rfl⟩

/-- A skip changes PC only. -/
theorem skipIf_onlyPc (s : State) (c : Bool) : OnlyPc s (s.skipIf c) := by
  cases c <;> exact ⟨rfl, fun _ => rfl⟩

/-- PC after a skip, as a number. -/
theorem skipIf_pc_toNat (s : State) (c : Bool) :
    (s.skipIf c).pc.toNat = (s.pc.toNat + if c then 2 else 0) % 65536 := by
  have := s.pc.isLt
  cases c
  · simp
    omega
  · rw [skipIf_pc, if_pos rfl, BitVec.toNat_add]
    rfl

/-- SP after a push, as a number. -/
theorem pushPc_sp_val {s : State} (h : s.sp ≠ 15) : s.pushPc.sp.val = s.sp.val + 1 := by
  have h1 : s.sp.val ≠ 15 := fun e => h (Fin.ext e)
  have h2 := s.sp.isLt
  rw [pushPc_sp, Fin.val_add]
  simp
  omega

/-- SP after a pop, as a number. -/
theorem popPc_sp_val {s : State} (h : s.sp ≠ 0) : s.popPc.sp.val + 1 = s.sp.val := by
  have h1 : s.sp.val ≠ 0 := fun e => h (Fin.ext e)
  have h2 := s.sp.isLt
  rw [popPc_sp, Fin.val_sub]
  simp
  omega

/-! ## The parts of a step -/

/-- A timer or register is not zero exactly when its value is above 0. -/
theorem ne_zero_iff_toNat_pos (b : Byte) : b ≠ 0 ↔ 0 < b.toNat := by
  rw [ne_eq, ← BitVec.toNat_inj]
  simp [Nat.pos_iff_ne_zero]


/-- PC is the instruction's own address again after a raise: the advance is undone (R94, R263). -/
@[simp] theorem advance_raise (s : State) (k : Fault) (n : Nat) : s.advance.raise k n = s.raiseAt s.pc k n := by
  simp [State.raise, State.raiseAt, State.advance]

@[simp] theorem tickDown_toNat (t : Byte) : (tickDown t).toNat = t.toNat - 1 := by
  unfold tickDown
  split
  · next h => subst h; rfl
  · next h =>
    have h1 : 0 < t.toNat := by
      rcases Nat.eq_zero_or_pos t.toNat with h0 | h0
      · exact absurd (BitVec.eq_of_toNat_eq (by simpa using h0)) h
      · exact h0
    have h2 := t.isLt
    rw [BitVec.toNat_sub]
    simp
    omega

theorem finishStep_of_fault (s : State) (h : s.fault ≠ none) : s.finishStep = s := by
  cases hf : s.fault with
  | none => exact absurd hf h
  | some r => simp [State.finishStep, State.faulted, hf]

theorem finishStep_of_none (s : State) (h : s.fault = none) : s.finishStep = s.tickTimers := by
  simp [State.finishStep, State.faulted, h]

end Sys2Proof.Machine
end

