-- ==== Sys2Proof/Laws/Memory.lean ====
section
/-! SUPPORT. The laws of memory: read after write, the canonical form, equal reads make equal memories, and what a
transfer of consecutive bytes does. -/

namespace Sys2Proof.Machine

theorem memSize_eq : Config.memSize = 0x1000 := rfl

theorem lastFetch_eq : Config.lastFetch = 0xFFE := rfl

/-! ## Read after write -/

@[simp] theorem read_consCell_same (m : Memory) (a : Nat) (v : Byte) (h : m.read a = Memory.unlisted a) :
    (Memory.consCell a v m).read a = v := by
  unfold Memory.consCell
  split
  · next hv => rw [h, hv]
  · simp [Memory.read]

theorem read_consCell_ne (m : Memory) (v : Byte) {a b : Nat} (h : b ≠ a) :
    (Memory.consCell a v m).read b = m.read b := by
  unfold Memory.consCell
  split
  · rfl
  · simp [Memory.read, h]

/-- An address below every listed one reads as unlisted. -/
theorem read_of_wfFrom (m : Memory) {lo a : Nat} (h : m.wfFrom lo = true) (ha : a < lo) :
    m.read a = Memory.unlisted a := by
  induction m generalizing lo with
  | nil => rfl
  | cons c m ih =>
    obtain ⟨b, x⟩ := c
    simp only [Memory.wfFrom, Bool.and_eq_true, decide_eq_true_eq] at h
    have hne : a ≠ b := by omega
    simp only [Memory.read, hne, if_false]
    exact ih h.2 (by omega)

theorem wfFrom_mono (m : Memory) {lo lo' : Nat} (h : m.wfFrom lo = true) (hl : lo' ≤ lo) : m.wfFrom lo' = true := by
  cases m with
  | nil => rfl
  | cons c m =>
    obtain ⟨b, x⟩ := c
    simp only [Memory.wfFrom, Bool.and_eq_true, decide_eq_true_eq] at h ⊢
    exact ⟨⟨⟨by omega, h.1.1.2⟩, h.1.2⟩, h.2⟩

/-- A write leaves every other cell as it was; in any list, canonical or not. -/
theorem read_write_ne (m : Memory) (v : Byte) {a b : Nat} (h : b ≠ a) : (m.write a v).read b = m.read b := by
  induction m with
  | nil => simp [Memory.write, read_consCell_ne _ _ h]
  | cons c m ih =>
    obtain ⟨k, x⟩ := c
    simp only [Memory.write]
    split
    · exact read_consCell_ne _ _ h
    · split
      · next _ hk => subst hk; rw [read_consCell_ne _ _ h]; simp [Memory.read, h]
      · simp only [Memory.read]; rw [ih]

theorem read_write_same_from (m : Memory) (v : Byte) {lo a : Nat} (h : m.wfFrom lo = true) :
    (m.write a v).read a = v := by
  induction m generalizing lo with
  | nil => exact read_consCell_same _ _ _ rfl
  | cons c m ih =>
    obtain ⟨k, x⟩ := c
    have h' := h
    simp only [Memory.wfFrom, Bool.and_eq_true, decide_eq_true_eq] at h'
    simp only [Memory.write]
    split
    · next hlt =>
      apply read_consCell_same
      have : Memory.wfFrom k ((k, x) :: m) = true := by
        simp only [Memory.wfFrom, Bool.and_eq_true, decide_eq_true_eq]
        exact ⟨⟨⟨le_refl _, h'.1.1.2⟩, h'.1.2⟩, h'.2⟩
      exact read_of_wfFrom _ this hlt
    · split
      · next _ hk =>
        subst hk
        exact read_consCell_same _ _ _ (read_of_wfFrom _ h'.2 (by omega))
      · next hlt hk =>
        simp only [Memory.read, hk, if_false]
        exact ih h'.2

/-- A write to a canonical memory gives the value written. -/
theorem read_write_same (m : Memory) (a : Nat) (v : Byte) (h : m.wf = true) : (m.write a v).read a = v :=
  read_write_same_from m v h

/-- A cell after a write. -/
theorem read_write (m : Memory) (a b : Nat) (v : Byte) (h : m.wf = true) :
    (m.write a v).read b = if b = a then v else m.read b := by
  split
  · next hb => subst hb; exact read_write_same m _ v h
  · next hb => exact read_write_ne m v hb

/-! ## The canonical form -/

theorem wfFrom_consCell (m : Memory) (v : Byte) {lo a : Nat} (hm : m.wfFrom (a + 1) = true) (hlo : lo ≤ a)
    (ha : a < Config.memSize) : (Memory.consCell a v m).wfFrom lo = true := by
  unfold Memory.consCell
  split
  · exact wfFrom_mono m hm (by omega)
  · next hv =>
    simp only [Memory.wfFrom, Bool.and_eq_true, decide_eq_true_eq, bne_iff_ne]
    exact ⟨⟨⟨hlo, ha⟩, hv⟩, hm⟩

theorem wfFrom_write (m : Memory) (v : Byte) {lo a : Nat} (hm : m.wfFrom lo = true) (hlo : lo ≤ a)
    (ha : a < Config.memSize) : (m.write a v).wfFrom lo = true := by
  induction m generalizing lo with
  | nil => exact wfFrom_consCell _ _ rfl hlo ha
  | cons c m ih =>
    obtain ⟨k, x⟩ := c
    have h' := hm
    simp only [Memory.wfFrom, Bool.and_eq_true, decide_eq_true_eq] at h'
    simp only [Memory.write]
    split
    · next hlt =>
      refine wfFrom_consCell _ _ ?_ hlo ha
      simp only [Memory.wfFrom, Bool.and_eq_true, decide_eq_true_eq]
      exact ⟨⟨⟨by omega, h'.1.1.2⟩, h'.1.2⟩, h'.2⟩
    · split
      · next _ hk => subst hk; exact wfFrom_consCell _ _ h'.2 hlo ha
      · next hlt hk =>
        simp only [Memory.wfFrom, Bool.and_eq_true, decide_eq_true_eq]
        exact ⟨⟨⟨h'.1.1.1, h'.1.1.2⟩, h'.1.2⟩, ih h'.2 (by omega)⟩

/-- A write of a cell of memory keeps the canonical form. -/
theorem wf_write (m : Memory) (v : Byte) {a : Nat} (hm : m.wf = true) (ha : a < Config.memSize) :
    (m.write a v).wf = true :=
  wfFrom_write m v hm (Nat.zero_le _) ha

theorem eq_of_read_eq_from (m n : Memory) {lo : Nat} (hm : m.wfFrom lo = true) (hn : n.wfFrom lo = true)
    (h : ∀ a, m.read a = n.read a) : m = n := by
  induction m generalizing n lo with
  | nil =>
    cases n with
    | nil => rfl
    | cons c n =>
      obtain ⟨k, x⟩ := c
      simp only [Memory.wfFrom, Bool.and_eq_true, decide_eq_true_eq, bne_iff_ne] at hn
      have := h k
      simp only [Memory.read, if_true] at this
      exact absurd this.symm hn.1.2
  | cons c m ih =>
    obtain ⟨k, x⟩ := c
    have hm' := hm
    simp only [Memory.wfFrom, Bool.and_eq_true, decide_eq_true_eq, bne_iff_ne] at hm'
    cases n with
    | nil =>
      have := h k
      simp only [Memory.read, if_true] at this
      exact absurd this hm'.1.2
    | cons d n =>
      obtain ⟨j, y⟩ := d
      have hn' := hn
      simp only [Memory.wfFrom, Bool.and_eq_true, decide_eq_true_eq, bne_iff_ne] at hn'
      rcases Nat.lt_trichotomy k j with hlt | heq | hlt
      · have hk := h k
        have hne : k ≠ j := by omega
        simp only [Memory.read, if_true, hne, if_false] at hk
        exact absurd (hk.trans (read_of_wfFrom n hn'.2 (by omega))) hm'.1.2
      · subst heq
        have hk := h k
        simp only [Memory.read, if_true] at hk
        subst hk
        have : m = n := by
          refine ih n hm'.2 hn'.2 fun a => ?_
          rcases Nat.lt_or_ge a (k + 1) with ha | ha
          · rw [read_of_wfFrom m hm'.2 ha, read_of_wfFrom n hn'.2 ha]
          · have := h a
            have hne : a ≠ k := by omega
            simpa only [Memory.read, hne, if_false] using this
        rw [this]
      · have hj := h j
        have hne : j ≠ k := by omega
        simp only [Memory.read, if_true, hne, if_false] at hj
        exact absurd (hj.symm.trans (read_of_wfFrom m hm'.2 (by omega))) hn'.1.2

/-- Two canonical memories that read alike are the same list. -/
theorem eq_of_read_eq (m n : Memory) (hm : m.wf = true) (hn : n.wf = true) (h : ∀ a, m.read a = n.read a) : m = n :=
  eq_of_read_eq_from m n hm hn h

/-! ## Transfers of consecutive bytes -/

/-- What a read of `n` bytes answers: the bytes, or the lowest address out of range (R54, R55, R261). -/
theorem loadBlock_eq (m : Memory) (a n : Nat) :
    m.loadBlock a n =
      if n = 0 ∨ a + n ≤ Config.memSize then .ok ((List.range' a n).map m.read)
      else .error (max a Config.memSize) := by
  induction n generalizing a with
  | zero => simp [Memory.loadBlock]
  | succ n ih =>
    unfold Memory.loadBlock Memory.load
    rcases Nat.lt_or_ge a Config.memSize with ha | ha
    · simp only [ha, if_true]
      rw [ih]
      rcases Nat.eq_zero_or_pos n with h0 | h0
      · subst h0
        have : a + 1 ≤ Config.memSize := by omega
        simp [this]
      · by_cases hr : a + 1 + n ≤ Config.memSize
        · have hr' : a + (n + 1) ≤ Config.memSize := by omega
          simp [hr, hr', List.range'_succ]
        · have hr' : ¬ a + (n + 1) ≤ Config.memSize := by omega
          have hn : n ≠ 0 := by omega
          have hmax : max (a + 1) Config.memSize = max a Config.memSize := by omega
          simp [hr, hr', hn, hmax]
    · have h1 : ¬ a < Config.memSize := by omega
      have h2 : ¬ a + (n + 1) ≤ Config.memSize := by omega
      simp [h1, h2, Nat.max_eq_left ha]

/-- What a write of bytes answers: the memory with all of them copied in, or the lowest address out of range
(R54, R55, R261). -/
theorem storeBlock_eq (m : Memory) (a : Nat) (bs : List Byte) :
    m.storeBlock a bs =
      if bs = [] ∨ a + bs.length ≤ Config.memSize then .ok (m.copyIn a bs)
      else .error (max a Config.memSize) := by
  induction bs generalizing m a with
  | nil => simp [Memory.storeBlock, Memory.copyIn]
  | cons b bs ih =>
    unfold Memory.storeBlock Memory.store
    rcases Nat.lt_or_ge a Config.memSize with ha | ha
    · simp only [ha, if_true]
      rw [ih]
      cases bs with
      | nil =>
        have : a + 1 ≤ Config.memSize := by omega
        simp [this, Memory.copyIn]
      | cons c bs =>
        by_cases hr : a + 1 + (c :: bs).length ≤ Config.memSize
        · have hr' : a + (b :: c :: bs).length ≤ Config.memSize := by simp only [List.length_cons] at hr ⊢; omega
          rw [if_pos (Or.inr hr), if_pos (Or.inr hr')]
          rfl
        · have hr' : ¬ a + (b :: c :: bs).length ≤ Config.memSize := by simp only [List.length_cons] at hr ⊢; omega
          have hmax : max (a + 1) Config.memSize = max a Config.memSize := by omega
          rw [if_neg (by simp only [not_or]; exact ⟨by simp, hr⟩), if_neg (by simp only [not_or]; exact ⟨by simp, hr'⟩),
            hmax]
    · have h1 : ¬ a < Config.memSize := by omega
      have h2 : ¬ a + (b :: bs).length ≤ Config.memSize := by simp only [List.length_cons]; omega
      simp only [h1, if_false]
      rw [if_neg (by simp only [not_or]; exact ⟨by simp, h2⟩), Nat.max_eq_left ha]

/-- Copied bytes leave every cell outside their range as it was. -/
theorem read_copyIn_outside (m : Memory) (bs : List Byte) {a b : Nat} (h : b < a ∨ a + bs.length ≤ b) :
    (m.copyIn a bs).read b = m.read b := by
  induction bs generalizing m a with
  | nil => rfl
  | cons c bs ih =>
    simp only [List.length_cons] at h
    simp only [Memory.copyIn]
    rw [ih _ (by omega), read_write_ne _ _ (by omega)]

/-- Copying bytes into memory keeps the canonical form. -/
theorem wf_copyIn (m : Memory) (bs : List Byte) {a : Nat} (hm : m.wf = true) (h : a + bs.length ≤ Config.memSize) :
    (m.copyIn a bs).wf = true := by
  induction bs generalizing m a with
  | nil => exact hm
  | cons c bs ih =>
    simp only [List.length_cons] at h
    exact ih _ (wf_write m c hm (by omega)) (by omega)

/-- Copied bytes read back: byte `k` of the block stands at `a + k`. -/
theorem read_copyIn (m : Memory) (bs : List Byte) {a k : Nat} (hm : m.wf = true)
    (h : a + bs.length ≤ Config.memSize) (hk : k < bs.length) : (m.copyIn a bs).read (a + k) = bs[k] := by
  induction bs generalizing m a k with
  | nil => exact absurd hk (by simp)
  | cons c bs ih =>
    simp only [List.length_cons] at h hk
    have hw : (m.write a c).wf = true := wf_write m c hm (by omega)
    cases k with
    | zero =>
      simp only [Memory.copyIn, Nat.add_zero, List.getElem_cons_zero]
      rw [read_copyIn_outside _ _ (by omega), read_write_same m a c hm]
    | succ k =>
      simp only [Memory.copyIn, List.getElem_cons_succ]
      rw [show a + (k + 1) = (a + 1) + k by omega]
      exact ih _ hw (by omega) (by omega)

/-- A block store keeps the canonical form. -/
theorem wf_storeBlock {m m' : Memory} {a : Nat} {bs : List Byte} (hm : m.wf = true)
    (h : m.storeBlock a bs = .ok m') : m'.wf = true := by
  rw [storeBlock_eq] at h
  split at h
  · next hr =>
    injection h with h
    subst h
    rcases hr with hr | hr
    · subst hr; exact hm
    · exact wf_copyIn m bs hm hr
  · cases h

/-- Every byte of memory at reset: the font or 0 (R290, R291). -/
@[simp] theorem reset_read (a : Nat) : State.reset.mem.read a = Config.font.getD a 0 := rfl

theorem reset_wf : State.reset.mem.wf = true := rfl

end Sys2Proof.Machine
end

