-- ==== Sys2Proof/Laws/Operands.lean ====
section
/-! SUPPORT. What the operand forms of Machine/Operands.lean hold. -/

namespace Sys2Proof.Machine

@[simp] theorem addrOf_toNat (nnn : Imm12) : (addrOf nnn).toNat = nnn.toNat := by
  have := nnn.isLt
  simp [addrOf]
  omega

@[simp] theorem indexedTarget_toNat (nnn : Imm12) (b : Byte) :
    (indexedTarget nnn b).toNat = nnn.toNat + b.toNat := by
  have := nnn.isLt
  have := b.isLt
  simp [indexedTarget]
  omega

@[simp] theorem glyphAddr_toNat (b : Byte) : (glyphAddr b).toNat = b.toNat * 5 := by
  have := b.isLt
  simp [glyphAddr]
  omega

/-- A register names a key exactly when its value is below 16 (R222). -/
theorem keyOf_eq_some {b : Byte} (h : b.toNat < 16) : keyOf b = some ⟨b.toNat, h⟩ := by
  simp [keyOf, h]

theorem keyOf_eq_none {b : Byte} (h : 15 < b.toNat) : keyOf b = none := by
  simp [keyOf]
  omega

/-- No key is pressed. -/
theorem lowestPressed_none (kp : Vector Bool 16) :
    lowestPressed kp = none ↔ ∀ k : Fin 16, kp[k.val] = false := by
  simp [lowestPressed, List.find?_eq_none]

/-- The pressed key that no lower pressed key precedes (R231). -/
theorem lowestPressed_some (kp : Vector Bool 16) (k : Fin 16) (hk : kp[k.val] = true)
    (hl : ∀ j : Fin 16, j < k → kp[j.val] = false) : lowestPressed kp = some k := by
  cases h : lowestPressed kp with
  | none =>
    have := (lowestPressed_none kp).1 h k
    rw [hk] at this
    cases this
  | some j =>
    have hj := List.find?_eq_some_iff_append.1 h
    obtain ⟨hj1, as, bs, hab, has⟩ := hj
    rcases lt_trichotomy j k with hlt | heq | hgt
    · simp [hl j hlt] at hj1
    · rw [heq]
    · have hs : (List.finRange 16).Pairwise (· < ·) := List.pairwise_lt_finRange 16
      rw [hab] at hs
      have hmem : k ∈ as ++ j :: bs := by rw [← hab]; exact List.mem_finRange k
      rcases List.mem_append.1 hmem with hin | hin
      · have := has k hin
        simp [hk] at this
      · rcases List.mem_cons.1 hin with he | hin
        · rw [he]
        · have := (List.pairwise_cons.1 (List.pairwise_append.1 hs).2.1).1 k hin
          exact absurd this (by omega)

@[simp] theorem regsUpTo_length (s : State) (x : RegIdx) : (s.regsUpTo x).length = x.val + 1 := by
  simp [State.regsUpTo]

/-- Entry `k` of the block V[0], …, V[x] is V[k]. -/
theorem regsUpTo_get (s : State) (x : RegIdx) (k : Fin 16) (h : k.val < (s.regsUpTo x).length) :
    (s.regsUpTo x)[k.val] = s.getV k := by
  simp [State.regsUpTo, State.getV]

/-- A register after a block of bytes is written from register `k` on. -/
theorem fillRegs_get (v : Vector Byte 16) (bs : List Byte) (k j : Nat) (hj : j < 16) :
    (fillRegs v k bs)[j] = if h : k ≤ j ∧ j < k + bs.length then bs[j - k]'(by omega) else v[j] := by
  induction bs generalizing v k with
  | nil =>
    have : ¬ (k ≤ j ∧ j < k + ([] : List Byte).length) := by simp
    rw [dif_neg this]
    rfl
  | cons b bs ih =>
    simp only [fillRegs]
    rw [ih]
    by_cases h : k + 1 ≤ j ∧ j < k + 1 + bs.length
    · have h' : k ≤ j ∧ j < k + (b :: bs).length := by simp only [List.length_cons]; omega
      rw [dif_pos h, dif_pos h']
      have : j - k = (j - (k + 1)) + 1 := by omega
      simp only [this, List.getElem_cons_succ]
    · rw [dif_neg h]
      by_cases hk : j = k
      · subst hk
        have h' : j ≤ j ∧ j < j + (b :: bs).length := by simp
        rw [dif_pos h']
        simp
      · have h' : ¬ (k ≤ j ∧ j < k + (b :: bs).length) := by simp only [List.length_cons]; omega
        rw [dif_neg h']
        have : k ≠ j := fun e => hk e.symm
        simp [this]

@[simp] theorem bcdDigits_length (b : Byte) : (bcdDigits b).length = 3 := rfl

end Sys2Proof.Machine
end

