-- ==== Sys2Proof/Laws/PerInstr.lean ====
section
/-! SUPPORT. Statements about every instruction as syntax, one lemma per constructor: the word the encoder writes has
the family digit of the instruction's row in R79. -/

namespace Sys2Proof.Laws

/-- The `op` digit of an instruction's row (R79). -/
def familyDigit : Instr → Nibble
  | .cls _ | .ret _ | .sys _ => 0x0
  | .jp _ => 0x1
  | .call _ => 0x2
  | .seImm _ _ => 0x3
  | .sneImm _ _ => 0x4
  | .seReg _ _ _ => 0x5
  | .ldImm _ _ => 0x6
  | .addImm _ _ => 0x7
  | .ldReg _ _ | .or _ _ | .and _ _ | .xor _ _ | .addReg _ _ | .sub _ _ | .shr _ _ | .subn _ _ | .shl _ _ => 0x8
  | .nop8 _ _ _ => 0x8
  | .sneReg _ _ _ => 0x9
  | .ldI _ => 0xA
  | .jpV0 _ => 0xB
  | .rnd _ _ => 0xC
  | .drw _ _ _ => 0xD
  | .skp _ | .sknp _ | .nopE _ _ => 0xE
  | .ldVxDt _ | .ldVxK _ | .ldDtVx _ | .ldStVx _ | .addIVx _ | .ldFVx _ | .ldBVx _ | .ldMemVx _ | .ldVxMem _ => 0xF
  | .nopF _ _ => 0xF

/-- The encoder writes the family digit of the instruction's row. -/
def EncodedFamily.Statement (i : Instr) : Prop := opField (encode i) = familyDigit i

theorem EncodedFamily.cls (x : Nibble) : EncodedFamily.Statement (.cls x) := by
  have := x.isLt
  apply BitVec.eq_of_toNat_eq
  rw [opField_toNat]
  simp [encode, familyDigit]
  omega

theorem EncodedFamily.ret (x : Nibble) : EncodedFamily.Statement (.ret x) := by
  have := x.isLt
  apply BitVec.eq_of_toNat_eq
  rw [opField_toNat]
  simp [encode, familyDigit]
  omega

theorem EncodedFamily.sys (nnn : Imm12) : EncodedFamily.Statement (.sys nnn) :=
  opField_packNNN _ _

theorem EncodedFamily.jp (nnn : Imm12) : EncodedFamily.Statement (.jp nnn) :=
  opField_packNNN _ _

theorem EncodedFamily.call (nnn : Imm12) : EncodedFamily.Statement (.call nnn) :=
  opField_packNNN _ _

theorem EncodedFamily.seImm (x : RegIdx) (nn : Byte) : EncodedFamily.Statement (.seImm x nn) :=
  opField_packXNN _ _ _

theorem EncodedFamily.sneImm (x : RegIdx) (nn : Byte) : EncodedFamily.Statement (.sneImm x nn) :=
  opField_packXNN _ _ _

theorem EncodedFamily.seReg (x y : RegIdx) (n : Nibble) : EncodedFamily.Statement (.seReg x y n) :=
  opField_packXYN _ _ _ _

theorem EncodedFamily.ldImm (x : RegIdx) (nn : Byte) : EncodedFamily.Statement (.ldImm x nn) :=
  opField_packXNN _ _ _

theorem EncodedFamily.addImm (x : RegIdx) (nn : Byte) : EncodedFamily.Statement (.addImm x nn) :=
  opField_packXNN _ _ _

theorem EncodedFamily.ldReg (x y : RegIdx) : EncodedFamily.Statement (.ldReg x y) :=
  opField_packXYN _ _ _ _

theorem EncodedFamily.or (x y : RegIdx) : EncodedFamily.Statement (.or x y) :=
  opField_packXYN _ _ _ _

theorem EncodedFamily.and (x y : RegIdx) : EncodedFamily.Statement (.and x y) :=
  opField_packXYN _ _ _ _

theorem EncodedFamily.xor (x y : RegIdx) : EncodedFamily.Statement (.xor x y) :=
  opField_packXYN _ _ _ _

theorem EncodedFamily.addReg (x y : RegIdx) : EncodedFamily.Statement (.addReg x y) :=
  opField_packXYN _ _ _ _

theorem EncodedFamily.sub (x y : RegIdx) : EncodedFamily.Statement (.sub x y) :=
  opField_packXYN _ _ _ _

theorem EncodedFamily.shr (x y : RegIdx) : EncodedFamily.Statement (.shr x y) :=
  opField_packXYN _ _ _ _

theorem EncodedFamily.subn (x y : RegIdx) : EncodedFamily.Statement (.subn x y) :=
  opField_packXYN _ _ _ _

theorem EncodedFamily.shl (x y : RegIdx) : EncodedFamily.Statement (.shl x y) :=
  opField_packXYN _ _ _ _

theorem EncodedFamily.nop8 (x y : RegIdx) (n : Nibble) : EncodedFamily.Statement (.nop8 x y n) :=
  opField_packXYN _ _ _ _

theorem EncodedFamily.sneReg (x y : RegIdx) (n : Nibble) : EncodedFamily.Statement (.sneReg x y n) :=
  opField_packXYN _ _ _ _

theorem EncodedFamily.ldI (nnn : Imm12) : EncodedFamily.Statement (.ldI nnn) :=
  opField_packNNN _ _

theorem EncodedFamily.jpV0 (nnn : Imm12) : EncodedFamily.Statement (.jpV0 nnn) :=
  opField_packNNN _ _

theorem EncodedFamily.rnd (x : RegIdx) (nn : Byte) : EncodedFamily.Statement (.rnd x nn) :=
  opField_packXNN _ _ _

theorem EncodedFamily.drw (x y : RegIdx) (n : Nibble) : EncodedFamily.Statement (.drw x y n) :=
  opField_packXYN _ _ _ _

theorem EncodedFamily.skp (x : RegIdx) : EncodedFamily.Statement (.skp x) :=
  opField_packXNN _ _ _

theorem EncodedFamily.sknp (x : RegIdx) : EncodedFamily.Statement (.sknp x) :=
  opField_packXNN _ _ _

theorem EncodedFamily.nopE (x : RegIdx) (nn : Byte) : EncodedFamily.Statement (.nopE x nn) :=
  opField_packXNN _ _ _

theorem EncodedFamily.ldVxDt (x : RegIdx) : EncodedFamily.Statement (.ldVxDt x) :=
  opField_packXNN _ _ _

theorem EncodedFamily.ldVxK (x : RegIdx) : EncodedFamily.Statement (.ldVxK x) :=
  opField_packXNN _ _ _

theorem EncodedFamily.ldDtVx (x : RegIdx) : EncodedFamily.Statement (.ldDtVx x) :=
  opField_packXNN _ _ _

theorem EncodedFamily.ldStVx (x : RegIdx) : EncodedFamily.Statement (.ldStVx x) :=
  opField_packXNN _ _ _

theorem EncodedFamily.addIVx (x : RegIdx) : EncodedFamily.Statement (.addIVx x) :=
  opField_packXNN _ _ _

theorem EncodedFamily.ldFVx (x : RegIdx) : EncodedFamily.Statement (.ldFVx x) :=
  opField_packXNN _ _ _

theorem EncodedFamily.ldBVx (x : RegIdx) : EncodedFamily.Statement (.ldBVx x) :=
  opField_packXNN _ _ _

theorem EncodedFamily.ldMemVx (x : RegIdx) : EncodedFamily.Statement (.ldMemVx x) :=
  opField_packXNN _ _ _

theorem EncodedFamily.ldVxMem (x : RegIdx) : EncodedFamily.Statement (.ldVxMem x) :=
  opField_packXNN _ _ _

theorem EncodedFamily.nopF (x : RegIdx) (nn : Byte) : EncodedFamily.Statement (.nopF x nn) :=
  opField_packXNN _ _ _

end Sys2Proof.Laws
end

