-- ==== Sys2Proof/Laws/Sprite.lean ====
section
/-! SUPPORT. What the sprite engine does, said once: a draw toggles exactly the cells under a 1 bit (R204, R205), and
its collision flag is 1 exactly when such a cell was 1 (R205). No two pixels of one sprite share a cell (R207). -/

namespace Sys2Proof.Machine

@[simp] theorem cell_toggle_same (fb : Framebuffer) (x : Fin 64) (y : Fin 32) :
    (fb.toggle x y).cell x y = !fb.cell x y := by
  simp [Framebuffer.toggle, Framebuffer.cell]

theorem cell_toggle_ne (fb : Framebuffer) {x px : Fin 64} {y py : Fin 32} (h : ¬ (px = x ∧ py = y)) :
    (fb.toggle x y).cell px py = fb.cell px py := by
  by_cases hy : py = y
  · subst hy
    have hx : x.val ≠ px.val := fun e => h ⟨Fin.ext e.symm, rfl⟩
    simp [Framebuffer.toggle, Framebuffer.cell, hx]
  · have hy' : y.val ≠ py.val := fun e => hy (Fin.ext e.symm)
    simp [Framebuffer.toggle, Framebuffer.cell, hy']

/-- The cell after a toggle. -/
theorem cell_toggle (fb : Framebuffer) (x px : Fin 64) (y py : Fin 32) :
    (fb.toggle x y).cell px py = if px = x ∧ py = y then !fb.cell px py else fb.cell px py := by
  split
  · next h => obtain ⟨rfl, rfl⟩ := h; simp
  · next h => exact cell_toggle_ne fb h

/-- Two framebuffers that agree on every cell are the same. -/
theorem framebuffer_ext {f g : Framebuffer} (h : ∀ x y, f.cell x y = g.cell x y) : f = g := by
  apply Vector.ext
  intro i hi
  apply Vector.ext
  intro j hj
  exact h ⟨j, hj⟩ ⟨i, hi⟩

theorem wrapX_eq_iff (p : Fin 64) (n : Nat) : p = wrapX n ↔ p.val = n % 64 := by
  rw [Fin.ext_iff]
  rfl

theorem wrapY_eq_iff (p : Fin 32) (n : Nat) : p = wrapY n ↔ p.val = n % 32 := by
  rw [Fin.ext_iff]
  rfl

/-! ## One row of a sprite -/

/-- Some column offset from `col` on, `k` of them, has its bit set and lands on column `px`. -/
def colHits (x0 : Nat) (b : Byte) (col k : Nat) (px : Fin 64) : Prop :=
  ∃ c, col ≤ c ∧ c < col + k ∧ spriteBit b c = true ∧ px = wrapX (x0 + c)

theorem colHits_succ (x0 : Nat) (b : Byte) (col k : Nat) (px : Fin 64) :
    colHits x0 b col (k + 1) px ↔
      (spriteBit b col = true ∧ px = wrapX (x0 + col)) ∨ colHits x0 b (col + 1) k px := by
  constructor
  · rintro ⟨c, h1, h2, h3, h4⟩
    rcases Nat.eq_or_lt_of_le h1 with he | hlt
    · subst he; exact .inl ⟨h3, h4⟩
    · exact .inr ⟨c, by omega, by omega, h3, h4⟩
  · rintro (⟨h3, h4⟩ | ⟨c, h1, h2, h3, h4⟩)
    · exact ⟨col, by omega, by omega, h3, h4⟩
    · exact ⟨c, by omega, by omega, h3, h4⟩

/-- The first column and a later one of the same row never share a cell. -/
theorem colHits_disjoint {x0 : Nat} {b : Byte} {col k : Nat} {px : Fin 64} (hk : k + 1 ≤ 64)
    (h : px = wrapX (x0 + col)) : ¬ colHits x0 b (col + 1) k px := by
  rintro ⟨c, h1, h2, -, h4⟩
  rw [wrapX_eq_iff] at h h4
  omega

/-- A sprite row toggles exactly the cells of its own row that a 1 bit lands on. -/
theorem drawCols_cell (x0 : Nat) (py : Fin 32) (b : Byte) (col k : Nat) (d : DrawState) (hk : k ≤ 64)
    (px : Fin 64) (q : Fin 32) :
    (q = py ∧ colHits x0 b col k px → (drawCols x0 py b col k d).1.cell px q = !d.1.cell px q) ∧
    (¬ (q = py ∧ colHits x0 b col k px) → (drawCols x0 py b col k d).1.cell px q = d.1.cell px q) := by
  induction k generalizing col d with
  | zero =>
    refine ⟨?_, fun _ => rfl⟩
    rintro ⟨-, c, h1, h2, -, -⟩
    omega
  | succ k ih =>
    simp only [drawCols, colHits_succ]
    obtain ⟨ih1, ih2⟩ := ih (col + 1) (if spriteBit b col then drawPixel d (wrapX (x0 + col)) py else d) (by omega)
    by_cases hb : spriteBit b col = true
    · simp only [hb, if_true, drawPixel] at ih1 ih2 ⊢
      by_cases hx : px = wrapX (x0 + col)
      · have hno := colHits_disjoint (b := b) hk hx
        rw [ih2 (fun h => hno h.2), cell_toggle]
        constructor
        · rintro ⟨hq, -⟩
          rw [if_pos ⟨hx, hq⟩]
        · intro h
          have hq : ¬ q = py := fun hq => h ⟨hq, .inl ⟨trivial, hx⟩⟩
          rw [if_neg (fun h => hq h.2)]
      · have ht : (d.1.toggle (wrapX (x0 + col)) py).cell px q = d.1.cell px q :=
          cell_toggle_ne _ (fun h => hx h.1)
        rw [ht] at ih1 ih2
        constructor
        · rintro ⟨hq, ⟨-, h⟩ | h⟩
          · exact absurd h hx
          · exact ih1 ⟨hq, h⟩
        · intro h
          exact ih2 fun hh => h ⟨hh.1, .inr hh.2⟩
    · simp only [Bool.not_eq_true] at hb
      simp only [hb, Bool.false_eq_true, if_false, false_and, false_or] at ih1 ih2 ⊢
      exact ⟨ih1, ih2⟩

/-- A sprite row sets the collision flag exactly when a 1 bit of it lands on a cell that was 1. -/
theorem drawCols_collision (x0 : Nat) (py : Fin 32) (b : Byte) (col k : Nat) (d : DrawState) (hk : k ≤ 64) :
    (drawCols x0 py b col k d).2 = true ↔
      d.2 = true ∨ ∃ px, colHits x0 b col k px ∧ d.1.cell px py = true := by
  induction k generalizing col d with
  | zero =>
    simp only [drawCols]
    constructor
    · exact .inl
    · rintro (h | ⟨px, ⟨c, h1, h2, -, -⟩, -⟩)
      · exact h
      · omega
  | succ k ih =>
    simp only [drawCols, colHits_succ]
    rw [ih _ _ (by omega)]
    by_cases hb : spriteBit b col = true
    · simp only [hb, if_true, drawPixel, Bool.or_eq_true]
      constructor
      · rintro ((h | h) | ⟨px, h1, h2⟩)
        · exact .inl h
        · exact .inr ⟨_, .inl ⟨trivial, rfl⟩, h⟩
        · refine .inr ⟨px, .inr h1, ?_⟩
          rwa [cell_toggle_ne] at h2
          exact fun h => colHits_disjoint hk h.1 h1
      · rintro (h | ⟨px, ⟨-, hx⟩ | h1, h2⟩)
        · exact .inl (.inl h)
        · subst hx; exact .inl (.inr h2)
        · refine .inr ⟨px, h1, ?_⟩
          rwa [cell_toggle_ne]
          exact fun h => colHits_disjoint hk h.1 h1
    · simp only [Bool.not_eq_true] at hb
      simp only [hb, Bool.false_eq_true, if_false, false_and, false_or]

/-! ## The whole sprite -/

/-- Some row offset of the bytes, which start at row offset `row`, has a 1 bit that lands on the cell (px, py). -/
def rowsHit (x0 y0 row : Nat) (bs : List Byte) (px : Fin 64) (py : Fin 32) : Prop :=
  ∃ r, ∃ h : r < bs.length, colHits x0 bs[r] 0 8 px ∧ py = wrapY (y0 + (row + r))

theorem rowsHit_cons (x0 y0 row : Nat) (b : Byte) (bs : List Byte) (px : Fin 64) (py : Fin 32) :
    rowsHit x0 y0 row (b :: bs) px py ↔
      (colHits x0 b 0 8 px ∧ py = wrapY (y0 + row)) ∨ rowsHit x0 y0 (row + 1) bs px py := by
  constructor
  · rintro ⟨r, hr, h1, h2⟩
    cases r with
    | zero => exact .inl ⟨h1, h2⟩
    | succ r =>
      refine .inr ⟨r, by simpa using hr, h1, ?_⟩
      rw [h2]; congr 1; omega
  · rintro (⟨h1, h2⟩ | ⟨r, hr, h1, h2⟩)
    · exact ⟨0, by simp, h1, h2⟩
    · refine ⟨r + 1, by simpa using hr, h1, ?_⟩
      rw [h2]; congr 1; omega

theorem rowsHit_disjoint {x0 y0 row : Nat} {bs : List Byte} {px : Fin 64} {py : Fin 32} (hl : bs.length + 1 ≤ 32)
    (h : py = wrapY (y0 + row)) : ¬ rowsHit x0 y0 (row + 1) bs px py := by
  rintro ⟨r, hr, -, h2⟩
  rw [wrapY_eq_iff] at h h2
  omega

/-- A sprite of at most 32 rows toggles exactly the cells a 1 bit lands on (R204, R205, R207). -/
theorem drawRows_cell (x0 y0 row : Nat) (bs : List Byte) (d : DrawState) (hl : bs.length ≤ 32)
    (px : Fin 64) (py : Fin 32) :
    (rowsHit x0 y0 row bs px py → (drawRows x0 y0 row bs d).1.cell px py = !d.1.cell px py) ∧
    (¬ rowsHit x0 y0 row bs px py → (drawRows x0 y0 row bs d).1.cell px py = d.1.cell px py) := by
  induction bs generalizing row d with
  | nil =>
    refine ⟨?_, fun _ => rfl⟩
    rintro ⟨r, hr, -⟩
    exact absurd hr (by simp)
  | cons b bs ih =>
    simp only [List.length_cons] at hl
    simp only [drawRows, rowsHit_cons]
    obtain ⟨ih1, ih2⟩ := ih (row + 1) (drawCols x0 (wrapY (y0 + row)) b 0 8 d) (by omega)
    obtain ⟨c1, c2⟩ := drawCols_cell x0 (wrapY (y0 + row)) b 0 8 d (by omega) px py
    by_cases hy : py = wrapY (y0 + row)
    · have hno := rowsHit_disjoint (x0 := x0) (px := px) hl hy
      rw [ih2 hno]
      constructor
      · rintro (⟨h, -⟩ | h)
        · exact c1 ⟨hy, h⟩
        · exact absurd h hno
      · intro h
        exact c2 fun hh => h (.inl ⟨hh.2, hh.1⟩)
    · rw [c2 (fun h => hy h.1)] at ih1 ih2
      constructor
      · rintro (⟨-, h⟩ | h)
        · exact absurd h hy
        · exact ih1 h
      · intro h
        exact ih2 fun hh => h (.inr hh)

/-- A sprite sets the collision flag exactly when a 1 bit of it lands on a cell that was 1 before the draw (R205). -/
theorem drawRows_collision (x0 y0 row : Nat) (bs : List Byte) (d : DrawState) (hl : bs.length ≤ 32) :
    (drawRows x0 y0 row bs d).2 = true ↔
      d.2 = true ∨ ∃ px py, rowsHit x0 y0 row bs px py ∧ d.1.cell px py = true := by
  induction bs generalizing row d with
  | nil =>
    simp only [drawRows]
    constructor
    · exact .inl
    · rintro (h | ⟨px, py, ⟨r, hr, -⟩, -⟩)
      · exact h
      · exact absurd hr (by simp)
  | cons b bs ih =>
    simp only [List.length_cons] at hl
    simp only [drawRows, rowsHit_cons]
    rw [ih _ _ (by omega), drawCols_collision _ _ _ _ _ _ (by omega)]
    have hsame : ∀ px py, rowsHit x0 y0 (row + 1) bs px py →
        (drawCols x0 (wrapY (y0 + row)) b 0 8 d).1.cell px py = d.1.cell px py := by
      intro px py h
      exact (drawCols_cell x0 (wrapY (y0 + row)) b 0 8 d (by omega) px py).2
        fun hh => rowsHit_disjoint hl hh.1 h
    constructor
    · rintro ((h | ⟨px, h1, h2⟩) | ⟨px, py, h1, h2⟩)
      · exact .inl h
      · exact .inr ⟨px, _, .inl ⟨h1, rfl⟩, h2⟩
      · exact .inr ⟨px, py, .inr h1, by rwa [hsame px py h1] at h2⟩
    · rintro (h | ⟨px, py, ⟨h1, hy⟩ | h1, h2⟩)
      · exact .inl (.inl h)
      · subst hy; exact .inl (.inr ⟨px, h1, h2⟩)
      · exact .inr ⟨px, py, h1, by rwa [hsame px py h1]⟩

/-- For the bytes a draw reads, the cells hit are those `State.spriteCovers` names. -/
theorem rowsHit_iff_spriteCovers (s : State) (x y : RegIdx) (n : Nat) (px : Fin 64) (py : Fin 32) :
    rowsHit ((s.getV x).toNat % 64) ((s.getV y).toNat % 32) 0 ((List.range' s.i.toNat n).map s.mem.read) px py ↔
      s.spriteCovers x y n px py := by
  constructor
  · rintro ⟨r, hr, ⟨c, -, h2, h3, h4⟩, h5⟩
    rw [wrapX_eq_iff] at h4
    rw [wrapY_eq_iff] at h5
    refine ⟨r, c, by simpa using hr, by omega, ?_, h4, by simpa using h5⟩
    simpa [spriteBit, State.spriteByte] using h3
  · rintro ⟨r, c, h1, h2, h3, h4, h5⟩
    refine ⟨r, by simpa using h1, ⟨c, by omega, by omega, ?_, (wrapX_eq_iff _ _).2 h4⟩, (wrapY_eq_iff _ _).2 (by simpa using h5)⟩
    simpa [spriteBit, State.spriteByte] using h3

end Sys2Proof.Machine
end

