-- ==== Sys2Proof/Laws/Transfers.lean ====
section
/-! SUPPORT. The four instructions that reach memory through I, each as one equation where its bytes lie in memory and
one where they do not (R54, R55, R60). -/

namespace Sys2Proof.Machine

/-- The bytes of a draw of `n` rows from I. -/
def State.sprite (s : State) (n : Nat) : List Byte := (List.range' s.i.toNat n).map s.mem.read

theorem execDrw_inRange (x y : RegIdx) (n : Nibble) {s : State}
    (h : n.toNat = 0 ∨ s.i.toNat + n.toNat ≤ Config.memSize) :
    execDrw x y n s = .next { s.setV 15
      (flagByte (drawSprite s.fb (s.getV x).toNat (s.getV y).toNat (s.sprite n.toNat)).2) with
      fb := (drawSprite s.fb (s.getV x).toNat (s.getV y).toNat (s.sprite n.toNat)).1, drawFlag := true } := by
  simp only [execDrw, loadBlock_eq, if_pos h]
  rfl

theorem execDrw_outOfRange (x y : RegIdx) (n : Nibble) {s : State} (hn : n.toNat ≠ 0)
    (h : Config.memSize < s.i.toNat + n.toNat) :
    execDrw x y n s = .next (s.raise .memoryOutOfRange (max s.i.toNat Config.memSize)) := by
  have hr : ¬ (n.toNat = 0 ∨ s.i.toNat + n.toNat ≤ Config.memSize) := by omega
  simp only [execDrw, loadBlock_eq, if_neg hr]

theorem execLdBVx_inRange (x : RegIdx) {s : State} (h : s.i.toNat + 3 ≤ Config.memSize) :
    execLdBVx x s = .next { s with mem := s.mem.copyIn s.i.toNat (bcdDigits (s.getV x)) } := by
  have hr : bcdDigits (s.getV x) = [] ∨ s.i.toNat + (bcdDigits (s.getV x)).length ≤ Config.memSize := .inr h
  simp only [execLdBVx, storeBlock_eq, if_pos hr]

theorem execLdBVx_outOfRange (x : RegIdx) {s : State} (h : Config.memSize < s.i.toNat + 3) :
    execLdBVx x s = .next (s.raise .memoryOutOfRange (max s.i.toNat Config.memSize)) := by
  have hr : ¬ (bcdDigits (s.getV x) = [] ∨ s.i.toNat + (bcdDigits (s.getV x)).length ≤ Config.memSize) := by
    rw [bcdDigits_length]
    simp [bcdDigits]
    omega
  simp only [execLdBVx, storeBlock_eq, if_neg hr]

theorem execLdMemVx_inRange (x : RegIdx) {s : State} (h : s.i.toNat + (x.val + 1) ≤ Config.memSize) :
    execLdMemVx x s =
      .next { s with mem := s.mem.copyIn s.i.toNat (s.regsUpTo x), i := s.iAfterBlock x } := by
  have hr : s.regsUpTo x = [] ∨ s.i.toNat + (s.regsUpTo x).length ≤ Config.memSize := .inr (by simpa using h)
  simp only [execLdMemVx, storeBlock_eq, if_pos hr]

theorem execLdMemVx_outOfRange (x : RegIdx) {s : State} (h : Config.memSize < s.i.toNat + (x.val + 1)) :
    execLdMemVx x s = .next (s.raise .memoryOutOfRange (max s.i.toNat Config.memSize)) := by
  have hne : s.regsUpTo x ≠ [] := fun e => by
    have := regsUpTo_length s x
    rw [e] at this
    cases this
  have hr : ¬ (s.regsUpTo x = [] ∨ s.i.toNat + (s.regsUpTo x).length ≤ Config.memSize) := by
    rw [regsUpTo_length]
    simp only [hne, false_or]
    omega
  simp only [execLdMemVx, storeBlock_eq, if_neg hr]

theorem execLdVxMem_inRange (x : RegIdx) {s : State} (h : s.i.toNat + (x.val + 1) ≤ Config.memSize) :
    execLdVxMem x s = .next { s with
      v := fillRegs s.v 0 ((List.range' s.i.toNat (x.val + 1)).map s.mem.read), i := s.iAfterBlock x } := by
  have hr : x.val + 1 = 0 ∨ s.i.toNat + (x.val + 1) ≤ Config.memSize := .inr h
  simp only [execLdVxMem, loadBlock_eq, if_pos hr]

theorem execLdVxMem_outOfRange (x : RegIdx) {s : State} (h : Config.memSize < s.i.toNat + (x.val + 1)) :
    execLdVxMem x s = .next (s.raise .memoryOutOfRange (max s.i.toNat Config.memSize)) := by
  have hr : ¬ (x.val + 1 = 0 ∨ s.i.toNat + (x.val + 1) ≤ Config.memSize) := by omega
  simp only [execLdVxMem, loadBlock_eq, if_neg hr]

/-- I after a block transfer that stays in memory is not reduced (R237, R238). -/
theorem iAfterBlock_toNat (x : RegIdx) {s : State} (h : s.i.toNat + (x.val + 1) ≤ Config.memSize) :
    (s.iAfterBlock x).toNat = s.i.toNat + x.val + 1 := by
  rw [memSize_eq] at h
  simp only [State.iAfterBlock, trunc16_toNat]
  omega

/-- V[k] after a block load: the byte at I + k for k ≤ X, its old value above (R238). -/
theorem getV_fillRegs (s : State) (m : Memory) (a n : Nat) (k : RegIdx) :
    (fillRegs s.v 0 ((List.range' a n).map m.read))[k.val] = if k.val < n then m.read (a + k.val) else s.getV k := by
  rw [fillRegs_get _ _ _ _ k.isLt]
  by_cases h : k.val < n
  · have h' : 0 ≤ k.val ∧ k.val < 0 + ((List.range' a n).map m.read).length := by simpa using h
    rw [dif_pos h', if_pos h]
    simp
  · have h' : ¬ (0 ≤ k.val ∧ k.val < 0 + ((List.range' a n).map m.read).length) := by simpa using h
    rw [dif_neg h', if_neg h]
    rfl

end Sys2Proof.Machine
end

