-- ==== Sys2Proof/Laws/Step.lean ====
section
/-! SUPPORT. What an instruction and a step can do, said once: an instruction either has its own effect and leaves the
fault record alone, or raises one fault from the state it started with. -/

namespace Sys2Proof.Machine

/-- The cause of a fault an instruction raises, with the info it records (R261). -/
def raiseCause (s : State) : Fault → Nat → Prop
  | .pcOutOfRange, _ => False
  | .memoryOutOfRange, n => n = max s.i.toNat Config.memSize
  | .stackOverflow, n => s.sp = 15 ∧ n = 15
  | .stackUnderflow, n => s.sp = 0 ∧ n = 0
  | .keyIndexOutOfRange, n => ∃ x : RegIdx, n = (s.getV x).toNat ∧ 15 < n

/-- An instruction has its own effect, the fault record and the tone untouched. -/
def RunsOn (i : Instr) (s : State) : Prop := ∃ t, exec i s = .next t ∧ t.fault = s.fault ∧ t.tone = s.tone

/-- An instruction raises one fault (R11). -/
def Raises (i : Instr) (s : State) : Prop := ∃ k n, exec i s = .next (s.raise k n) ∧ raiseCause s k n

/-! ## The meanings that can raise -/

theorem execRet_cases (x : Nibble) (s : State) : RunsOn (.ret x) s ∨ Raises (.ret x) s := by
  simp only [RunsOn, Raises, exec, execRet]
  by_cases h : s.sp = 0
  · exact .inr ⟨.stackUnderflow, 0, by rw [if_pos h], h, rfl⟩
  · exact .inl ⟨s.popPc, by rw [if_neg h], rfl, rfl⟩

theorem execCall_cases (nnn : Imm12) (s : State) : RunsOn (.call nnn) s ∨ Raises (.call nnn) s := by
  simp only [RunsOn, Raises, exec, execCall]
  by_cases h : s.sp = 15
  · exact .inr ⟨.stackOverflow, 15, by rw [if_pos h, h]; rfl, h, rfl⟩
  · exact .inl ⟨{ s.pushPc with pc := addrOf nnn }, by rw [if_neg h], rfl, rfl⟩

theorem execSkp_cases (x : RegIdx) (s : State) : RunsOn (.skp x) s ∨ Raises (.skp x) s := by
  simp only [RunsOn, Raises, exec, execSkp]
  rcases Nat.lt_or_ge (s.getV x).toNat 16 with h | h
  · exact .inl ⟨s.skipIf s.keypad[(s.getV x).toNat], by rw [keyOf_eq_some h], by simp, by simp⟩
  · exact .inr ⟨.keyIndexOutOfRange, _, by rw [keyOf_eq_none h], x, rfl, h⟩

theorem execSknp_cases (x : RegIdx) (s : State) : RunsOn (.sknp x) s ∨ Raises (.sknp x) s := by
  simp only [RunsOn, Raises, exec, execSknp]
  rcases Nat.lt_or_ge (s.getV x).toNat 16 with h | h
  · exact .inl ⟨s.skipIf (!s.keypad[(s.getV x).toNat]), by rw [keyOf_eq_some h], by simp, by simp⟩
  · exact .inr ⟨.keyIndexOutOfRange, _, by rw [keyOf_eq_none h], x, rfl, h⟩

theorem execLdVxK_runs (x : RegIdx) (s : State) : RunsOn (.ldVxK x) s := by
  simp only [RunsOn, exec, execLdVxK]
  cases lowestPressed s.keypad with
  | none => exact ⟨_, rfl, rfl, rfl⟩
  | some k => exact ⟨_, rfl, rfl, rfl⟩

theorem execDrw_cases (x y : RegIdx) (n : Nibble) (s : State) : RunsOn (.drw x y n) s ∨ Raises (.drw x y n) s := by
  by_cases h : n.toNat = 0 ∨ s.i.toNat + n.toNat ≤ Config.memSize
  · exact .inl ⟨_, execDrw_inRange x y n h, rfl, rfl⟩
  · exact .inr ⟨_, _, execDrw_outOfRange x y n (by omega) (by omega), rfl⟩

theorem execLdBVx_cases (x : RegIdx) (s : State) : RunsOn (.ldBVx x) s ∨ Raises (.ldBVx x) s := by
  rcases Nat.lt_or_ge Config.memSize (s.i.toNat + 3) with h | h
  · exact .inr ⟨_, _, execLdBVx_outOfRange x h, rfl⟩
  · exact .inl ⟨_, execLdBVx_inRange x h, rfl, rfl⟩

theorem execLdMemVx_cases (x : RegIdx) (s : State) : RunsOn (.ldMemVx x) s ∨ Raises (.ldMemVx x) s := by
  rcases Nat.lt_or_ge Config.memSize (s.i.toNat + (x.val + 1)) with h | h
  · exact .inr ⟨_, _, execLdMemVx_outOfRange x h, rfl⟩
  · exact .inl ⟨_, execLdMemVx_inRange x h, rfl, rfl⟩

theorem execLdVxMem_cases (x : RegIdx) (s : State) : RunsOn (.ldVxMem x) s ∨ Raises (.ldVxMem x) s := by
  rcases Nat.lt_or_ge Config.memSize (s.i.toNat + (x.val + 1)) with h | h
  · exact .inr ⟨_, _, execLdVxMem_outOfRange x h, rfl⟩
  · exact .inl ⟨_, execLdVxMem_inRange x h, rfl, rfl⟩

/-- Every instruction has its own effect or raises one fault. -/
theorem exec_cases (i : Instr) (s : State) : RunsOn i s ∨ Raises i s := by
  cases i with
  | ret x => exact execRet_cases x s
  | call nnn => exact execCall_cases nnn s
  | skp x => exact execSkp_cases x s
  | sknp x => exact execSknp_cases x s
  | ldVxK x => exact .inl (execLdVxK_runs x s)
  | drw x y n => exact execDrw_cases x y n s
  | ldBVx x => exact execLdBVx_cases x s
  | ldMemVx x => exact execLdMemVx_cases x s
  | ldVxMem x => exact execLdVxMem_cases x s
  | seImm x nn => exact .inl ⟨_, rfl, skipIf_fault _ _, skipIf_tone _ _⟩
  | sneImm x nn => exact .inl ⟨_, rfl, skipIf_fault _ _, skipIf_tone _ _⟩
  | seReg x y n => exact .inl ⟨_, rfl, skipIf_fault _ _, skipIf_tone _ _⟩
  | sneReg x y n => exact .inl ⟨_, rfl, skipIf_fault _ _, skipIf_tone _ _⟩
  | _ => exact .inl ⟨_, rfl, rfl, rfl⟩

/-! ## The step -/

theorem step_of_fault (s : State) (h : s.fault ≠ none) : step s = .next s.stuck := by
  cases hf : s.fault with
  | none => exact absurd hf h
  | some r => simp [step, State.faulted, hf]

theorem step_of_pc (s : State) (h : s.fault = none) (hp : s.pc.toNat > Config.lastFetch) :
    step s = .next (s.raiseAt s.pc .pcOutOfRange s.pc.toNat) := by
  simp [step, State.faulted, State.fetchOutOfRange, h, hp]

/-- A step that can fetch is the fetched instruction on the advanced state, and then the end of the step. -/
theorem step_of_exec {s t : State} (h : s.canFetch) (he : exec (decodeWord s.fetchWord) s.advance = .next t) :
    step s = .next t.finishStep := by
  obtain ⟨hf, hp⟩ := h
  have hp' : ¬ s.pc.toNat > Config.lastFetch := by omega
  simp [step, State.faulted, State.fetchOutOfRange, hf, hp', he]

/-- A step whose instruction does not raise ends with the timers' tick (R96, R97). -/
theorem step_of_runs {s t : State} (h : s.canFetch) (he : exec (decodeWord s.fetchWord) s.advance = .next t)
    (ht : t.fault = none) : step s = .next t.tickTimers := by
  rw [step_of_exec h he, finishStep_of_none t ht]

/-- A step whose instruction raises leaves the state with the fault record set, the timers not ticked (R98, R263). -/
theorem step_of_raises {s : State} {k : Fault} {n : Nat} (h : s.canFetch)
    (he : exec (decodeWord s.fetchWord) s.advance = .next (s.advance.raise k n)) :
    step s = .next (s.raiseAt s.pc k n) := by
  rw [step_of_exec h he, advance_raise, finishStep_of_fault _ (by simp)]

/-- What a step can do: stay stuck, raise on the fetch, run the instruction and tick the timers, or raise in the
instruction with everything but the fault record as it was. -/
theorem step_cases (s : State) :
    (s.fault ≠ none ∧ step s = .next s.stuck) ∨
    (s.fault = none ∧ s.pc.toNat > Config.lastFetch ∧ step s = .next (s.raiseAt s.pc .pcOutOfRange s.pc.toNat)) ∨
    (s.canFetch ∧ ∃ t, exec (decodeWord s.fetchWord) s.advance = .next t ∧ t.fault = none ∧
      step s = .next t.tickTimers) ∨
    (s.canFetch ∧ ∃ k n, exec (decodeWord s.fetchWord) s.advance = .next (s.raiseAt s.pc k n) ∧ raiseCause s k n ∧
      step s = .next (s.raiseAt s.pc k n)) := by
  by_cases hf : s.fault = none
  · rcases Nat.lt_or_ge Config.lastFetch s.pc.toNat with hp | hp
    · exact .inr (.inl ⟨hf, hp, step_of_pc s hf hp⟩)
    · have hc : s.canFetch := ⟨hf, hp⟩
      rcases exec_cases (decodeWord s.fetchWord) s.advance with ⟨t, he, ht, -⟩ | ⟨k, n, he, hk⟩
      · have ht' : t.fault = none := by rw [ht]; exact hf
        refine .inr (.inr (.inl ⟨hc, t, he, ht', ?_⟩))
        rw [step_of_exec hc he, finishStep_of_none t ht']
      · rw [advance_raise] at he
        have hk' : raiseCause s k n := by cases k <;> exact hk
        refine .inr (.inr (.inr ⟨hc, k, n, he, hk', ?_⟩))
        rw [step_of_exec hc he, finishStep_of_fault _ (by simp)]
  · exact .inl ⟨hf, step_of_fault s hf⟩

/-! ## Placing an instruction -/

theorem fetchPlace_le (s : State) : s.fetchPlace.toNat ≤ Config.lastFetch := by
  unfold State.fetchPlace State.fetchOutOfRange
  split
  · decide
  · next h => simpa using h

theorem withFetchWord_canFetch (s : State) (nbits w : Nat) : (s.withFetchWord nbits w).canFetch :=
  ⟨rfl, fetchPlace_le s⟩

/-- The very next step fetches exactly the word that was placed. -/
theorem withFetchWord_fetch (s : State) (w : Word) (hm : s.mem.wf = true) :
    (s.withFetchWord 16 w.toNat).fetchWord = w := by
  have hp := fetchPlace_le s
  have hw : trunc16 (w.toNat % 2 ^ 16) = w := by
    apply BitVec.eq_of_toNat_eq
    have := w.isLt
    simp only [trunc16_toNat]
    omega
  have hlen : (bytesOfWord w).length = 2 := rfl
  have hfit : s.fetchPlace.toNat + (bytesOfWord w).length ≤ Config.memSize := by
    rw [hlen]
    have : Config.lastFetch + 2 = Config.memSize := rfl
    omega
  have h0 := read_copyIn s.mem (bytesOfWord w) (k := 0) hm hfit (by simp [hlen])
  have h1 := read_copyIn s.mem (bytesOfWord w) (k := 1) hm hfit (by simp [hlen])
  simp only [State.fetchWord, State.withFetchWord, hw]
  rw [Nat.add_zero] at h0
  rw [h0, h1]
  exact wordOfBytes_bytesOfWord w

end Sys2Proof.Machine
end

