-- ==== Sys2Proof/Laws/Shapes.lean ====
section
/-! SUPPORT. The shapes of the next state of an instruction, as one case lemma, and the fault record that a raise leaves
explains itself. -/

namespace Sys2Proof.Machine

theorem next_inj {s t : State} (h : (Host.Outcome.next s : Result) = .next t) : s = t := by injection h

/-- The induction over what an instruction can leave: a property of the next state holds if it holds of each shape a
next state has (a raise, a return, a call, a skip, a draw, a key wait taken or blocked, the three block transfers), and
of the next state of every other instruction. -/
theorem exec_shapes (P : State → Prop) (i : Instr) (s t : State) (he : exec i s = .next t)
    (hraise : ∀ k n, P (s.raise k n))
    (hret : ∀ x, i = .ret x → P s.popPc)
    (hcall : ∀ nnn, i = .call nnn → s.sp ≠ 15 → P { s.pushPc with pc := addrOf nnn })
    (hskip : ∀ c, isSkip i = true → P (s.skipIf c))
    (hdrw : ∀ x y n b f, i = .drw x y n → P { s.setV 15 b with fb := f, drawFlag := true })
    (hkey : ∀ x b, i = .ldVxK x → P { s.setV x b with keyWait := false })
    (hkey0 : ∀ x, i = .ldVxK x → P { s with pc := s.pc - 2, keyWait := true })
    (hbcd : ∀ x, i = .ldBVx x → s.i.toNat + 3 ≤ Config.memSize →
      P { s with mem := s.mem.copyIn s.i.toNat (bcdDigits (s.getV x)) })
    (hst : ∀ x, i = .ldMemVx x → s.i.toNat + (x.val + 1) ≤ Config.memSize →
      P { s with mem := s.mem.copyIn s.i.toNat (s.regsUpTo x), i := s.iAfterBlock x })
    (hld : ∀ x bs, i = .ldVxMem x → bs.length = x.val + 1 →
      P { s with v := fillRegs s.v 0 bs, i := s.iAfterBlock x })
    (hrest : (∀ x, i ≠ .ret x) → (∀ x, i ≠ .call x) → isSkip i = false → (∀ x y n, i ≠ .drw x y n) →
      (∀ x, i ≠ .ldVxK x) → (∀ x, i ≠ .ldBVx x) → (∀ x, i ≠ .ldMemVx x) → (∀ x, i ≠ .ldVxMem x) → P t) : P t := by
  cases i with
  | ret x =>
    simp only [exec, execRet] at he
    split at he <;> (have := next_inj he; subst this)
    · exact hraise _ _
    · exact hret _ rfl
  | call nnn =>
    simp only [exec, execCall] at he
    split at he
    · have := next_inj he; subst this; exact hraise _ _
    · next h => have := next_inj he; subst this; exact hcall _ rfl h
  | skp x =>
    simp only [exec, execSkp] at he
    split at he <;> (have := next_inj he; subst this)
    · exact hraise _ _
    · exact hskip _ rfl
  | sknp x =>
    simp only [exec, execSknp] at he
    split at he <;> (have := next_inj he; subst this)
    · exact hraise _ _
    · exact hskip _ rfl
  | seImm x nn => have := next_inj he; subst this; exact hskip _ rfl
  | sneImm x nn => have := next_inj he; subst this; exact hskip _ rfl
  | seReg x y n => have := next_inj he; subst this; exact hskip _ rfl
  | sneReg x y n => have := next_inj he; subst this; exact hskip _ rfl
  | drw x y n =>
    by_cases h : n.toNat = 0 ∨ s.i.toNat + n.toNat ≤ Config.memSize
    · have := next_inj ((execDrw_inRange x y n h).symm.trans he); subst this; exact hdrw _ _ _ _ _ rfl
    · have := next_inj ((execDrw_outOfRange x y n (by omega) (by omega)).symm.trans he); subst this; exact hraise _ _
  | ldVxK x =>
    simp only [exec, execLdVxK] at he
    split at he <;> (have := next_inj he; subst this)
    · exact hkey _ _ rfl
    · exact hkey0 _ rfl
  | ldBVx x =>
    rcases Nat.lt_or_ge Config.memSize (s.i.toNat + 3) with h | h
    · have := next_inj ((execLdBVx_outOfRange x h).symm.trans he); subst this; exact hraise _ _
    · have := next_inj ((execLdBVx_inRange x h).symm.trans he); subst this; exact hbcd _ rfl h
  | ldMemVx x =>
    rcases Nat.lt_or_ge Config.memSize (s.i.toNat + (x.val + 1)) with h | h
    · have := next_inj ((execLdMemVx_outOfRange x h).symm.trans he); subst this; exact hraise _ _
    · have := next_inj ((execLdMemVx_inRange x h).symm.trans he); subst this; exact hst _ rfl h
  | ldVxMem x =>
    rcases Nat.lt_or_ge Config.memSize (s.i.toNat + (x.val + 1)) with h | h
    · have := next_inj ((execLdVxMem_outOfRange x h).symm.trans he); subst this; exact hraise _ _
    · have := next_inj ((execLdVxMem_inRange x h).symm.trans he); subst this; exact hld _ _ rfl (by simp)
  | _ => exact hrest (by simp) (by simp) rfl (by simp) (by simp) (by simp) (by simp) (by simp)

/-- The record of a raise whose cause holds explains the state it stands in (R261, R262). -/
theorem explains_of_cause {s : State} {k : Fault} {n : Nat} (h : s.canFetch) (hc : raiseCause s k n) :
    FaultRecord.explains ⟨k, n, s.pc⟩ (s.raiseAt s.pc k n) = true := by
  have hp := h.2
  cases k with
  | pcOutOfRange => exact hc.elim
  | memoryOutOfRange => simp [FaultRecord.explains, hp, hc.symm]
  | stackOverflow => obtain ⟨h1, h2⟩ := hc; simp [FaultRecord.explains, hp, h1, h2]
  | stackUnderflow => obtain ⟨h1, h2⟩ := hc; simp [FaultRecord.explains, hp, h1, h2]
  | keyIndexOutOfRange =>
    obtain ⟨x, h1, h2⟩ := hc
    simp only [FaultRecord.explains]
    simp [hp]
    exact ⟨⟨x, h1⟩, h2⟩

end Sys2Proof.Machine
end

