-- ==== Sys2Proof/Tests/Slice0.lean ====
section
/-! SUPPORT. Tests of the model on fixed values, and the witnesses of the statements' hypotheses. Expected results are
those of spec/95_test_vectors.md (the vector is named in each comment) or are worked out by hand from the named rule. -/

open Sys2Proof Sys2Proof.Machine

namespace Sys2Proof.Tests

-- One theorem at a time: a kernel evaluation waits for the theorems before it, and each waiting thread holds memory.
set_option Elab.async false

/-! ## Helpers -/

/-- Reset with some registers set. -/
def regs (rs : List (RegIdx × Byte)) : State := rs.foldl (fun s r => s.setV r.1 r.2) State.reset

/-- A state with the word `w` where its next step fetches, stored by `withFetchWord`. -/
def put (w : Nat) (s : State) : State := s.withFetchWord 16 w

/-- One cell of the framebuffer set beforehand. -/
def dot (x : Fin 64) (y : Fin 32) (s : State) : State := { s with fb := Framebuffer.toggle s.fb x y }

/-- Bytes written to memory beforehand. -/
def bytesAt (a : Nat) (bs : List Byte) (s : State) : State := { s with mem := s.mem.copyIn a bs }

/-- The state after one step (the step answers one from every state). -/
def nextOf (s : State) : State :=
  match step s with
  | .next t => t
  | .fault _ | .refused _ => s

/-- The state after one instruction. -/
def execOf (i : Instr) (s : State) : State :=
  match exec i s with
  | .next t => t
  | .fault _ | .refused _ => s

theorem step_eq_nextOf (s : State) : step s = .next (nextOf s) := by
  rcases step_cases s with ⟨-, h⟩ | ⟨-, -, h⟩ | ⟨-, _, -, -, h⟩ | ⟨-, _, _, -, -, h⟩ <;> simp only [nextOf, h]

theorem exec_eq_execOf (i : Instr) (s : State) : exec i s = .next (execOf i s) := by
  rcases exec_cases i s with ⟨_, h, -⟩ | ⟨_, _, h, -⟩ <;> simp only [execOf, h]

/-- Whether one step on `s` with the word `w` placed answers a next state with the property `p`. -/
def runs (w : Nat) (s : State) (p : State → Bool) : Bool :=
  match step (put w s) with
  | .next t => p t
  | .fault _ | .refused _ => false

/-- The cells that are set, as (x, y), row by row. -/
def cells (s : State) : List (Nat × Nat) :=
  ((s.fb.toList.map fun r => ((r.toList.zipIdx.filter (·.1)).map (·.2))).zipIdx.map fun p =>
    p.1.map fun x => (x, p.2)).flatten

/-! ## Well-formedness: each check refuses its ill-formed term -/

theorem test_wf_sys : (Instr.sys 0x0E0).wellFormed = false ∧ (Instr.sys 0x1EE).wellFormed = false ∧
    (Instr.sys 0x0E1).wellFormed = true := by decide

theorem test_wf_nop8 : (Instr.nop8 1 2 0x0).wellFormed = false ∧ (Instr.nop8 1 2 0x7).wellFormed = false ∧
    (Instr.nop8 1 2 0xE).wellFormed = false ∧ (Instr.nop8 1 2 0x8).wellFormed = true := by decide

theorem test_wf_nopE : (Instr.nopE 1 0x9E).wellFormed = false ∧ (Instr.nopE 1 0xA1).wellFormed = false ∧
    (Instr.nopE 1 0x9F).wellFormed = true := by decide

theorem test_wf_nopF : (familyFSelectors.all fun nn => !(Instr.nopF 1 nn).wellFormed) = true ∧
    (Instr.nopF 1 0x75).wellFormed = true := by decide

/-! ## Decoding: words written out from the opcode column and the field positions of R71, R79 -/

theorem test_decode_0_1_2 : decodeWord 0x00E0 = .cls 0 ∧ decodeWord 0x01E0 = .cls 1 ∧ decodeWord 0x00EE = .ret 0 ∧
    decodeWord 0x0FEE = .ret 0xF ∧ decodeWord 0x0ABC = .sys 0xABC ∧ decodeWord 0x1ABC = .jp 0xABC ∧
    decodeWord 0x2ABC = .call 0xABC := by decide +kernel

theorem test_decode_3_to_7 : decodeWord 0x3AB5 = .seImm 0xA 0xB5 ∧ decodeWord 0x4AB5 = .sneImm 0xA 0xB5 ∧
    decodeWord 0x5AB0 = .seReg 0xA 0xB 0 ∧ decodeWord 0x5ABF = .seReg 0xA 0xB 0xF ∧
    decodeWord 0x6AB5 = .ldImm 0xA 0xB5 ∧ decodeWord 0x7AB5 = .addImm 0xA 0xB5 := by decide +kernel

theorem test_decode_8 : decodeWord 0x8AB0 = .ldReg 0xA 0xB ∧ decodeWord 0x8AB1 = .or 0xA 0xB ∧
    decodeWord 0x8AB2 = .and 0xA 0xB ∧ decodeWord 0x8AB3 = .xor 0xA 0xB ∧ decodeWord 0x8AB4 = .addReg 0xA 0xB ∧
    decodeWord 0x8AB5 = .sub 0xA 0xB ∧ decodeWord 0x8AB6 = .shr 0xA 0xB ∧ decodeWord 0x8AB7 = .subn 0xA 0xB ∧
    decodeWord 0x8ABE = .shl 0xA 0xB ∧ decodeWord 0x8AB8 = .nop8 0xA 0xB 8 ∧
    decodeWord 0x8ABF = .nop8 0xA 0xB 0xF := by decide +kernel

theorem test_decode_9_to_D : decodeWord 0x9AB0 = .sneReg 0xA 0xB 0 ∧ decodeWord 0xABC5 = .ldI 0xBC5 ∧
    decodeWord 0xBBC5 = .jpV0 0xBC5 ∧ decodeWord 0xCAB5 = .rnd 0xA 0xB5 ∧
    decodeWord 0xDAB5 = .drw 0xA 0xB 5 := by decide +kernel

theorem test_decode_E_F : decodeWord 0xEA9E = .skp 0xA ∧ decodeWord 0xEAA1 = .sknp 0xA ∧
    decodeWord 0xEA9F = .nopE 0xA 0x9F ∧ decodeWord 0xFA07 = .ldVxDt 0xA ∧ decodeWord 0xFA0A = .ldVxK 0xA ∧
    decodeWord 0xFA15 = .ldDtVx 0xA ∧ decodeWord 0xFA18 = .ldStVx 0xA ∧ decodeWord 0xFA1E = .addIVx 0xA ∧
    decodeWord 0xFA29 = .ldFVx 0xA ∧ decodeWord 0xFA33 = .ldBVx 0xA ∧ decodeWord 0xFA55 = .ldMemVx 0xA ∧
    decodeWord 0xFA65 = .ldVxMem 0xA ∧ decodeWord 0xFAFF = .nopF 0xA 0xFF := by decide +kernel

/-- R53: the byte at the lower address is the high byte; one byte alone is refused by name. -/
theorem test_decode_bytes : decode [0x12, 0x34, 0x56] = .ok (.jp 0x234, [0x56]) ∧
    decode [0x12] = .error .truncated ∧ decode [] = .error .truncated ∧
    decodeTableWord 16 0x1234 = some (.jp 0x234) := ⟨rfl, rfl, rfl, rfl⟩

/-! ## The step (VS-1 to VS-8) -/

/-- VS-2. -/
theorem test_step_timers : runs 0x0000 { State.reset with dt := 1, st := 2 } (fun t =>
    t.dt == 0 && t.st == 1 && t.tone && t.pc == 0x202) = true := by decide +kernel

/-- VS-4: a faulted machine stays as it is (the record is set after the word is placed). -/
theorem test_step_faulted :
    nextOf { put 0x6005 State.reset with fault := some ⟨.stackUnderflow, 0, 0x200⟩, dt := 5 } =
      { put 0x6005 State.reset with fault := some ⟨.stackUnderflow, 0, 0x200⟩, dt := 5 } := by decide +kernel

/-- VS-5 and VS-6: the last fetch is at 0xFFE; PC = 0x1000 faults. -/
theorem test_step_end_of_memory : (nextOf { State.reset with pc := 0xFFE }).pc = 0x1000 ∧
    (nextOf { State.reset with pc := 0xFFE }).fault = none ∧
    (nextOf { State.reset with pc := 0x1000 }).fault = some ⟨.pcOutOfRange, 0x1000, 0x1000⟩ := by decide +kernel

/-- VS-8: an odd PC runs. -/
theorem test_step_odd_pc : runs 0x602A { State.reset with pc := 0x203 } (fun t =>
    t.getV 0 == 0x2A && t.pc == 0x205) = true := by decide +kernel

/-! ## Families 0, 1, 2 -/

/-- V0-3: every 0x0XE0 clears the screen. -/
theorem test_cls : runs 0x01E0 (dot 5 5 State.reset) (fun t => t.drawFlag && cells t == [] && t.pc == 0x202) = true := by
  decide +kernel

/-- V0-4. -/
theorem test_ret : runs 0x00EE { State.reset with sp := 1, stack := State.reset.stack.set 1 0x206 } (fun t =>
    t.pc == 0x206 && t.sp == 0 && t.stack[1] == 0x206) = true := by decide +kernel

/-- V0-5, VS-3. -/
theorem test_ret_underflow : runs 0x00EE { State.reset with st := 2 } (fun t =>
    t.fault == some ⟨.stackUnderflow, 0, 0x200⟩ && t.st == 2 && !t.tone && t.pc == 0x200) = true := by decide +kernel

/-- V0-7. -/
theorem test_sys : nextOf (put 0x0123 State.reset) = { put 0x0123 State.reset with pc := 0x202 } := by decide +kernel

/-- V1-1 and V1-2. -/
theorem test_jp : runs 0x1ABC State.reset (fun t => t.pc == 0xABC) = true ∧
    runs 0x1203 State.reset (fun t => t.pc == 0x203 && t.fault.isNone) = true := by decide +kernel

/-- V2-4: a call in the last word of memory. -/
theorem test_call : runs 0x2400 { State.reset with pc := 0xFFE } (fun t =>
    t.sp == 1 && t.stack[1] == 0x1000 && t.stack[0] == 0 && t.pc == 0x400) = true := by decide +kernel

/-- V2-2 and V2-3. -/
theorem test_call_depth : runs 0x2300 { State.reset with sp := 14 } (fun t =>
      t.sp == 15 && t.stack[15] == 0x202 && t.pc == 0x300) = true ∧
    runs 0x2300 { State.reset with sp := 15 } (fun t =>
      t.fault == some ⟨.stackOverflow, 15, 0x200⟩ && t.sp == 15 && t.pc == 0x200) = true := by decide +kernel

/-! ## Families 3 to 7 and 9 -/

/-- V3-1 and V3-2, at 0x208. -/
theorem test_seImm : runs 0x3305 { regs [(3, 0x05)] with pc := 0x208 } (fun t => t.pc == 0x20C) = true ∧
    runs 0x3305 { regs [(3, 0x06)] with pc := 0x208 } (fun t => t.pc == 0x20A) = true := by decide +kernel

/-- V4-1 and V4-2. -/
theorem test_sneImm : runs 0x4305 (regs [(3, 0x06)]) (fun t => t.pc == 0x204) = true ∧
    runs 0x4305 (regs [(3, 0x05)]) (fun t => t.pc == 0x202) = true := by decide +kernel

/-- V5-2 and V5-3. -/
theorem test_seReg : runs 0x5121 (regs [(1, 0x10), (2, 0x10)]) (fun t => t.pc == 0x204) = true ∧
    runs 0x5120 (regs [(1, 0x10), (2, 0x11)]) (fun t => t.pc == 0x202) = true := by decide +kernel

/-- V6-2. -/
theorem test_ldImm : runs 0x6F12 (regs [(15, 1)]) (fun t => t.getV 15 == 0x12) = true := by decide +kernel

/-- V7-2: the sum wraps and VF is not touched. -/
theorem test_addImm : runs 0x7001 (regs [(0, 0xFF), (15, 0x55)]) (fun t =>
    t.getV 0 == 0 && t.getV 15 == 0x55) = true := by decide +kernel

/-- V9-4 and V9-2. -/
theorem test_sneReg : runs 0x912F (regs [(1, 1), (2, 2)]) (fun t => t.pc == 0x204) = true ∧
    runs 0x9120 (regs [(1, 2), (2, 2)]) (fun t => t.pc == 0x202) = true := by decide +kernel

/-! ## Family 8 -/

/-- V8-1. -/
theorem test_ldReg : runs 0x8120 (regs [(2, 0x3C)]) (fun t => t.getV 1 == 0x3C && t.getV 2 == 0x3C) = true := by
  decide +kernel

/-- V8-2. -/
theorem test_or : runs 0x8121 (regs [(1, 0xF0), (2, 0x3C), (15, 0x55)]) (fun t =>
    t.getV 1 == 0xFC && t.getV 15 == 0x55) = true := by decide +kernel

/-- V8-3. -/
theorem test_and : runs 0x8122 (regs [(1, 0xF0), (2, 0x3C), (15, 0x55)]) (fun t =>
    t.getV 1 == 0x30 && t.getV 15 == 0x55) = true := by decide +kernel

/-- V8-4. -/
theorem test_xor : runs 0x8123 (regs [(1, 0xF0), (2, 0x3C), (15, 0x55)]) (fun t =>
    t.getV 1 == 0xCC && t.getV 15 == 0x55) = true := by decide +kernel

/-- V8-7: the operands are bound before any write, also with X = Y. -/
theorem test_addReg : runs 0x8114 (regs [(1, 0x80)]) (fun t => t.getV 1 == 0 && t.getV 15 == 1) = true := by
  decide +kernel

/-- V8-9 and V8-10: VF as destination ends as the flag, as source is read before. -/
theorem test_addReg_VF : runs 0x8F14 (regs [(15, 0xF0), (1, 0x20)]) (fun t => t.getV 15 == 1) = true ∧
    runs 0x81F4 (regs [(1, 0x10), (15, 0xFF)]) (fun t => t.getV 1 == 0x0F && t.getV 15 == 1) = true := by decide +kernel

/-- V8-12 and V8-13. -/
theorem test_sub : runs 0x8125 (regs [(1, 3), (2, 5)]) (fun t => t.getV 1 == 0xFE && t.getV 15 == 0) = true ∧
    runs 0x8125 (regs [(1, 7), (2, 7)]) (fun t => t.getV 1 == 0 && t.getV 15 == 1) = true := by decide +kernel

/-- V8-15. -/
theorem test_shr : runs 0x8126 (regs [(1, 0x81), (2, 0x77)]) (fun t =>
    t.getV 1 == 0x40 && t.getV 15 == 1 && t.getV 2 == 0x77) = true := by decide +kernel

/-- V8-19 and V8-20. -/
theorem test_subn : runs 0x8127 (regs [(1, 3), (2, 5)]) (fun t => t.getV 1 == 2 && t.getV 15 == 1) = true ∧
    runs 0x8127 (regs [(1, 5), (2, 3)]) (fun t => t.getV 1 == 0xFE && t.getV 15 == 0) = true := by decide +kernel

/-- V8-21 and V8-24. -/
theorem test_shl : runs 0x810E (regs [(1, 0x81)]) (fun t => t.getV 1 == 0x02 && t.getV 15 == 1) = true ∧
    runs 0x8FFE (regs [(15, 0x40)]) (fun t => t.getV 15 == 0) = true := by decide +kernel

/-- V8-25. -/
theorem test_nop8 : nextOf (put 0x812F (regs [(1, 0x12)])) = { put 0x812F (regs [(1, 0x12)]) with pc := 0x202 } := by
  decide +kernel

/-! ## Families A to C -/

/-- VA-2. -/
theorem test_ldI : runs 0xAFFF { State.reset with i := 0xFFFF } (fun t => t.i == 0x0FFF) = true := by decide +kernel

/-- VB-2 and VB-3: V0 is the index, the sum is not reduced. -/
theorem test_jpV0 : runs 0xBFFF (regs [(0, 0xFF)]) (fun t => t.pc == 0x10FE && t.fault.isNone) = true ∧
    runs 0xB300 (regs [(0, 0x01), (3, 0x40)]) (fun t => t.pc == 0x301) = true := by decide +kernel

/-- VC-2 and VC-3, for every draw. -/
theorem test_rnd (s : State) : (execOf (.rnd 1 0x00) s).getV 1 = 0 ∧
    (execOf (.rnd 1 0xFF) s).getV 1 = Config.rand s.draws := by
  constructor
  · simp [execOf, exec, execRnd, State.getV, State.setV]
  · simp only [execOf, exec, execRnd, State.getV, State.setV]
    simpa using BitVec.and_allOnes (x := Config.rand s.draws)

/-! ## Family D -/

/-- VD-1: glyph 0 at (0, 0). -/
theorem test_drw_glyph : runs 0xD015 State.reset (fun t => t.drawFlag && t.getV 15 == 0 && cells t ==
    [(0, 0), (1, 0), (2, 0), (3, 0), (0, 1), (3, 1), (0, 2), (3, 2), (0, 3), (3, 3), (0, 4), (1, 4), (2, 4), (3, 4)])
      = true := by decide +kernel

/-- VD-4 (wrap at the right edge), VD-7 (VF as both operands), VD-8 (collision) and VD-11 (fault, nothing drawn). -/
theorem test_drw_cases :
    runs 0xD011 (bytesAt 0x300 [0xFF] { regs [(0, 60), (1, 10)] with i := 0x300 }) (fun t => t.getV 15 == 0 &&
      cells t == [(0, 10), (1, 10), (2, 10), (3, 10), (60, 10), (61, 10), (62, 10), (63, 10)]) = true ∧
    runs 0xDFF1 (bytesAt 0x300 [0x80] { regs [(15, 5)] with i := 0x300 }) (fun t =>
      t.getV 15 == 0 && cells t == [(5, 5)]) = true ∧
    runs 0xD001 (dot 0 0 (bytesAt 0x300 [0xC0] { State.reset with i := 0x300 })) (fun t =>
      t.getV 15 == 1 && cells t == [(1, 0)]) = true ∧
    runs 0xD005 (dot 0 0 { State.reset with i := 0xFFC }) (fun t =>
      t.fault == some ⟨.memoryOutOfRange, 0x1000, 0x200⟩ && cells t == [(0, 0)] && !t.drawFlag) = true := by
  decide +kernel

/-! ## Family E -/

/-- VE-1 and VE-5. -/
theorem test_skp : runs 0xE19E ((regs [(1, 5)]).setKey 5 true) (fun t => t.pc == 0x204) = true ∧
    runs 0xE19E (regs [(1, 0x10)]) (fun t => t.fault == some ⟨.keyIndexOutOfRange, 0x10, 0x200⟩) = true := by
  decide +kernel

/-- VE-3, VE-4 and VE-6. -/
theorem test_sknp : runs 0xE1A1 (regs [(1, 5)]) (fun t => t.pc == 0x204) = true ∧
    runs 0xE1A1 ((regs [(1, 5)]).setKey 5 true) (fun t => t.pc == 0x202) = true ∧
    runs 0xE1A1 ((regs [(1, 0x15)]).setKey 5 true) (fun t =>
      t.fault == some ⟨.keyIndexOutOfRange, 0x15, 0x200⟩) = true := by decide +kernel

/-- VE-7. -/
theorem test_nopE : runs 0xE19F (regs [(1, 0x20)]) (fun t => t.pc == 0x202 && t.fault.isNone) = true := by
  decide +kernel

/-! ## Family F -/

/-- VF-1: FX07 reads DT before the decrement of its step. -/
theorem test_ldVxDt : runs 0xF107 { State.reset with dt := 4 } (fun t => t.getV 1 == 4 && t.dt == 3) = true := by
  decide +kernel

/-- VF-3: no key, the step blocks and the timer runs. -/
theorem test_ldVxK_blocks : runs 0xF00A { State.reset with dt := 2 } (fun t =>
    t.pc == 0x200 && t.keyWait && t.dt == 1 && t.getV 0 == 0) = true := by decide +kernel

/-- VF-4: the least pressed key. -/
theorem test_ldVxK_takes : runs 0xF00A { (State.reset.setKey 3 true).setKey 9 true with keyWait := true } (fun t =>
    t.getV 0 == 3 && t.pc == 0x202 && !t.keyWait) = true := by decide +kernel

/-- VF-6. -/
theorem test_ldDtVx : runs 0xF015 (regs [(0, 5)]) (fun t => t.dt == 4) = true := by decide +kernel

/-- VF-8 and VF-9. -/
theorem test_ldStVx : runs 0xF018 (regs [(0, 1)]) (fun t => t.tone && t.st == 0) = true ∧
    runs 0xF018 { State.reset with st := 9 } (fun t => !t.tone && t.st == 0) = true := by decide +kernel

/-- VF-11 and VF-12: I wraps at 16 bits, not at 12, and writes no flag (VF-10). -/
theorem test_addIVx : runs 0xF01E { regs [(0, 1), (15, 0x55)] with i := 0xFFFF } (fun t =>
      t.i == 0 && t.getV 15 == 0x55) = true ∧
    runs 0xF01E { regs [(0, 1)] with i := 0x0FFF } (fun t => t.i == 0x1000) = true := by decide +kernel

/-- VF-13 and VF-14. -/
theorem test_ldFVx : runs 0xF129 (regs [(1, 0x0A)]) (fun t => t.i == 0x032) = true ∧
    runs 0xF129 (regs [(1, 0xFF)]) (fun t => t.i == 0x4FB) = true := by decide +kernel

/-- VF-16 and VF-20. -/
theorem test_ldBVx : runs 0xF033 { regs [(0, 0xEA)] with i := 0x300 } (fun t =>
      (t.mem.read 0x300 == 2 && t.mem.read 0x301 == 3 && t.mem.read 0x302 == 4) && t.i == 0x300) = true ∧
    runs 0xF033 { regs [(0, 7)] with i := 0xFFE } (fun t =>
      t.fault == some ⟨.memoryOutOfRange, 0x1000, 0x200⟩ && t.mem.read 0xFFE == 0) = true := by decide +kernel

/-- VF-21: V2 is not stored, and I moves by X + 1. -/
theorem test_ldMemVx : runs 0xF155 { regs [(0, 1), (1, 2), (2, 9)] with i := 0x300 } (fun t =>
    t.mem.read 0x300 == 1 && t.mem.read 0x301 == 2 && t.mem.read 0x302 == 0 && t.i == 0x302) = true := by decide +kernel

/-- VF-24: no byte of a store that faults lands. -/
theorem test_ldMemVx_fault : runs 0xFF55 { regs [(0, 1)] with i := 0xFF1 } (fun t =>
    t.fault == some ⟨.memoryOutOfRange, 0x1000, 0x200⟩ && t.mem.read 0xFF1 == 0 && t.i == 0xFF1) = true := by
  decide +kernel

/-- VF-25. -/
theorem test_ldVxMem : runs 0xF265 (bytesAt 0x300 [2, 3, 4] { regs [(3, 7)] with i := 0x300 }) (fun t =>
    (t.getV 0 == 2 && t.getV 1 == 3) && (t.getV 2 == 4 && t.getV 3 == 7) && t.i == 0x303) = true := by decide +kernel

/-- VF-28. -/
theorem test_nopF : nextOf (put 0xF1FF State.reset) = { put 0xF1FF State.reset with pc := 0x202 } := by decide +kernel

/-! ## Reset, load, memory -/

/-- VR-2 and VR-3 (the font default), and E11's zero bytes. -/
theorem test_reset_font : (List.range 5).map State.reset.mem.read = [0xF0, 0x90, 0x90, 0x90, 0xF0] ∧
    (List.range' 0x4B 5).map State.reset.mem.read = [0xF0, 0x80, 0xF0, 0x80, 0x80] ∧
    State.reset.mem.read 0x50 = 0 ∧ State.reset.mem.read 0xFFF = 0 := by decide +kernel

/-- VR-7's load: the bytes land at 0x200, PC and the registers stay. -/
theorem test_load : (match { regs [(0, 9)] with pc := 0x234 }.load [0x60, 0x01] with
    | .ok t => t.mem.read 0x200 == 0x60 && t.mem.read 0x201 == 1 && t.pc == 0x234 && t.getV 0 == 9
    | .error _ => false) = true := by decide +kernel

/-- E11: 4000 bytes are refused. -/
theorem test_load_too_large : (State.reset.load (List.replicate 4000 0xFF) matches .error .romTooLarge) = true := by
  decide +kernel

/-- The canonical form: writing what an unlisted address reads as removes the entry (20_memory.md R59; the font's first
byte is 0xF0). -/
theorem test_memory_canonical : ((Memory.write [] 0x000 0x12).write 0x000 0xF0) = [] ∧
    (Memory.write [] 0x300 0) = [] ∧ Memory.wf [(0x000, 0xF0)] = false ∧ Memory.wf [(0x300, 1), (0x2FF, 1)] = false ∧
    Memory.wf [(0x1000, 1)] = false := by decide +kernel

/-! ## Witnesses: states and operands that meet the hypotheses of each statement -/

theorem test_witness_DecodeOfEncodeIsIdentity : (Instr.sys 0xFFF).wellFormed = true ∧
    (Instr.nop8 15 15 0xF).wellFormed = true ∧ (Instr.nopE 15 0xFF).wellFormed = true ∧
    (Instr.nopF 15 0xFF).wellFormed = true ∧ (Instr.drw 15 15 15).wellFormed = true := by decide

theorem test_witness_DecoderAgreesWithOpcodeMap : ∃ r ∈ opcodeRows1, ∃ q ∈ opcodeRows1,
    r.selects 0x8FFE = true ∧ q.selects 0x8FFE = true :=
  ⟨⟨"SHL", 0xF00F, 0x800E⟩, by decide +kernel, ⟨"SHL", 0xF00F, 0x800E⟩, by decide +kernel, by decide, by decide⟩

/-- Each clause of NoOpWordsHaveNoEffect at the edges of its range. -/
theorem test_witness_NoOpWordsHaveNoEffect :
    (∀ n ∈ [0x0000, 0x00DF, 0x00E1, 0x00ED, 0x00EF, 0x0FFF], n / 4096 = 0 ∧ n % 256 ≠ 0xE0 ∧ n % 256 ≠ 0xEE) ∧
    (∀ n ∈ [0x8008, 0x8FFD, 0x8FFF], n / 4096 = 8 ∧ 7 < n % 16 ∧ n % 16 ≠ 0xE) ∧
    (∀ n ∈ [0xE000, 0xE09D, 0xE0A2, 0xEFFF], n / 4096 = 0xE ∧ n % 256 ≠ 0x9E ∧ n % 256 ≠ 0xA1) ∧
    (∀ n ∈ [0xF000, 0xF006, 0xF066, 0xFFFF],
      n / 4096 = 0xF ∧ n % 256 ∉ [0x07, 0x0A, 0x15, 0x18, 0x1E, 0x29, 0x33, 0x55, 0x65]) := by decide

/-- Words of the families that the statements about JP, the skips, the loads, family 8 and I name, at their edges. -/
theorem test_witness_family_words :
    (∀ n ∈ [0x00E0, 0x0FE0], n / 4096 = 0 ∧ n % 256 = 0xE0) ∧
    (∀ p ∈ [(0x1000, 1), (0x1FFF, 1), (0x3000, 3), (0x4FFF, 4), (0x5001, 5), (0x6F00, 6), (0x7FFF, 7), (0x9FFF, 9),
      (0xAFFF, 0xA)], p.1 / 4096 = p.2) ∧
    (∀ p ∈ [(0x8FF0, 0), (0x8001, 1), (0x8122, 2), (0x8FF3, 3)], p.1 / 4096 = 8 ∧ p.1 % 16 = p.2) ∧
    (∀ p ∈ [(0xFF1E, 0x1E), (0xF029, 0x29)], p.1 / 4096 = 0xF ∧ p.1 % 256 = p.2) := by decide

theorem test_witness_CallPushesReturnAddress : State.reset.sp ≠ 15 ∧ ({ State.reset with sp := 14 } : State).sp ≠ 15 := by
  decide

theorem test_witness_ReturnPopsReturnAddress : ({ State.reset with sp := 1 } : State).sp ≠ 0 ∧
    ({ State.reset with sp := 15 } : State).sp ≠ 0 := by decide

theorem test_witness_ReturnUndoesCall : ({ State.reset with sp := 14 } : State).sp ≠ 15 ∧ State.reset.sp ≠ 15 := by
  decide

/-- RegisterSkips' X = Y, the ALU statements' X ≠ F, RandomIsMaskedDraw's masked bit, MoveAndLogic's bit index. -/
theorem test_witness_operand_clauses : (15 : RegIdx) = 15 ∧ (14 : RegIdx) ≠ 15 ∧ (0 : RegIdx) ≠ 15 ∧
    (0x7F : Byte).getLsbD 7 = false ∧ 7 < 8 := by decide

/-- CarrySymmetricBorrowsComplementary's two cases. -/
theorem test_witness_CarrySymmetricBorrowsComplementary : (regs [(1, 5), (2, 3)]).getV 1 ≠ (regs [(1, 5), (2, 3)]).getV 2 ∧
    (regs [(1, 7), (2, 7)]).getV 1 = (regs [(1, 7), (2, 7)]).getV 2 := by decide

theorem test_witness_TimerWrittenIsTickedInSameStep : ∃ s u v : State, s.canFetch ∧ u.canFetch ∧ v.canFetch ∧
    decodeWord s.fetchWord = .ldDtVx 0 ∧ decodeWord u.fetchWord = .ldStVx 15 ∧ decodeWord v.fetchWord = .ldVxDt 1 :=
  ⟨put 0xF015 State.reset, put 0xFF18 { State.reset with pc := 0xFFE }, put 0xF107 State.reset,
    withFetchWord_canFetch _ _ _, withFetchWord_canFetch _ _ _, withFetchWord_canFetch _ _ _,
    by decide +kernel, by decide +kernel, by decide +kernel⟩

/-- Every disjunct of DrawToggles: N = 0 anywhere, the last bytes of memory, a cell under a 1 bit that was 1, and none. -/
theorem test_witness_DrawTogglesExactlyCoveredCells :
    (0 : Nibble).toNat = 0 ∧ ({ State.reset with i := 0xFFB } : State).i.toNat + (5 : Nibble).toNat ≤ 0x1000 ∧
    (∃ px py, (dot 0 0 State.reset).spriteCovers 0 1 5 px py ∧ (dot 0 0 State.reset).fb.cell px py = true) ∧
    (¬ ∃ px py, State.reset.spriteCovers 0 1 0 px py ∧ State.reset.fb.cell px py = true) :=
  ⟨by decide, by decide, ⟨0, 0, ⟨0, 0, by decide, by decide, by decide, by decide, by decide⟩, by decide +kernel⟩,
    fun ⟨_, _, ⟨row, _, h, _⟩, _⟩ => absurd h (Nat.not_lt_zero row)⟩

theorem test_witness_DrawTwiceRestoresScreen : ∃ (s t : State), s.i.toNat + (5 : Nibble).toNat ≤ 0x1000 ∧
    exec (.drw 0 1 5) s = .next t ∧ (t.getV 0).toNat % 64 = (s.getV 0).toNat % 64 ∧
    (t.getV 1).toNat % 32 = (s.getV 1).toNat % 32 :=
  ⟨{ regs [(0, 255), (1, 254)] with i := 0xFFB }, _, by decide, exec_eq_execOf _ _, by decide +kernel, by decide +kernel⟩

theorem test_witness_KeySkips : ((regs [(1, 15)]).getV 1).toNat = (15 : Fin 16).val ∧
    ((regs [(1, 0)]).getV 1).toNat = (0 : Fin 16).val := by decide

/-- Both clauses: the least pressed key is 0, is 15, and no key is pressed. -/
theorem test_witness_KeyWaitTakesLeastKey :
    ((State.reset.setKey 0 true).keypad[0] = true ∧ ∀ j : Fin 16, j < 0 → (State.reset.setKey 0 true).keypad[j.val] = false) ∧
    ((State.reset.setKey 15 true).keypad[15] = true ∧
      ∀ j : Fin 16, j < 15 → (State.reset.setKey 15 true).keypad[j.val] = false) ∧
    (∀ k : Fin 16, State.reset.keypad[k.val] = false) := by decide +kernel

theorem test_witness_KeyWaitBlocksWhileTimersRun : ∃ s : State, s.canFetch ∧ decodeWord s.fetchWord = .ldVxK 0 ∧
    ∀ k : Fin 16, s.keypad[k.val] = false :=
  ⟨put 0xF00A State.reset, withFetchWord_canFetch _ _ _, by decide +kernel, by decide +kernel⟩

/-- The last addresses at which BCD and the block transfers stay in memory. -/
theorem test_witness_memory_transfers :
    State.reset.mem.wf = true ∧ ({ State.reset with i := 0xFFD } : State).i.toNat + 2 ≤ 0xFFF ∧
    ({ State.reset with i := 0xFF0 } : State).i.toNat + (15 : RegIdx).val ≤ 0xFFF ∧
    ({ State.reset with i := 0xFFF } : State).i.toNat + (0 : RegIdx).val ≤ 0xFFF := by decide

/-- Both clauses of StepRunsDecodedInstruction: an instruction that completes and one that raises. -/
theorem test_witness_StepRunsDecodedInstruction :
    (∃ (s t : State) (i : Instr), s.fault = none ∧ s.pc.toNat ≤ 0xFFE ∧
      decode [s.mem.read s.pc.toNat, s.mem.read (s.pc.toNat + 1)] = .ok (i, []) ∧
      exec i { s with pc := s.pc + 2 } = .next t ∧ t.fault = none) ∧
    (∃ (s t : State) (i : Instr), s.fault = none ∧ s.pc.toNat ≤ 0xFFE ∧
      decode [s.mem.read s.pc.toNat, s.mem.read (s.pc.toNat + 1)] = .ok (i, []) ∧
      exec i { s with pc := s.pc + 2 } = .next t ∧ t.fault ≠ none) :=
  ⟨⟨put 0x6005 { State.reset with pc := 0xFFE }, _, .ldImm 0 5, by decide, by decide, rfl, exec_eq_execOf _ _,
      by decide +kernel⟩,
    ⟨put 0x00EE State.reset, _, .ret 0, by decide, by decide, rfl, exec_eq_execOf _ _, by decide +kernel⟩⟩

theorem test_witness_FaultedStepChangesNothing :
    ({ State.reset with fault := some ⟨.stackUnderflow, 0, 0x200⟩ } : State).fault ≠ none := by decide

theorem test_witness_FetchBeyondMemoryFaults :
    ({ State.reset with pc := 0xFFF } : State).fault = none ∧ ({ State.reset with pc := 0xFFF } : State).pc.toNat > 0xFFE := by
  decide

theorem test_witness_StackBoundsFault : ∃ s u : State, s.canFetch ∧ u.canFetch ∧
    decodeWord s.fetchWord = .call 0x300 ∧ s.sp = 15 ∧ decodeWord u.fetchWord = .ret 0 ∧ u.sp = 0 :=
  ⟨put 0x2300 { State.reset with sp := 15 }, put 0x00EE State.reset, withFetchWord_canFetch _ _ _,
    withFetchWord_canFetch _ _ _, by decide +kernel, rfl, by decide +kernel, rfl⟩

/-- The first address at which each transfer leaves memory. -/
theorem test_witness_TransferBeyondMemoryFaults : ∃ s u v w : State,
    (s.canFetch ∧ decodeWord s.fetchWord = .ldBVx 0 ∧ s.i.toNat + 2 > 0xFFF) ∧
    (u.canFetch ∧ decodeWord u.fetchWord = .ldMemVx 15 ∧ u.i.toNat + (15 : RegIdx).val > 0xFFF) ∧
    (v.canFetch ∧ decodeWord v.fetchWord = .ldVxMem 0 ∧ v.i.toNat + (0 : RegIdx).val > 0xFFF) ∧
    (w.canFetch ∧ decodeWord w.fetchWord = .drw 0 1 5 ∧ 0 < (5 : Nibble).toNat ∧ w.i.toNat + (5 : Nibble).toNat > 0x1000) :=
  ⟨put 0xF033 { State.reset with i := 0xFFE }, put 0xFF55 { State.reset with i := 0xFF1 },
    put 0xF065 { State.reset with i := 0x1000 }, put 0xD015 { State.reset with i := 0xFFC },
    ⟨withFetchWord_canFetch _ _ _, by decide +kernel, by decide⟩, ⟨withFetchWord_canFetch _ _ _, by decide +kernel, by decide⟩,
    ⟨withFetchWord_canFetch _ _ _, by decide +kernel, by decide⟩,
    ⟨withFetchWord_canFetch _ _ _, by decide +kernel, by decide, by decide⟩⟩

theorem test_witness_KeyIndexAbove15Faults : ∃ s u : State,
    (s.canFetch ∧ 15 < (s.getV 1).toNat ∧ decodeWord s.fetchWord = .skp 1) ∧
    (u.canFetch ∧ 15 < (u.getV 1).toNat ∧ decodeWord u.fetchWord = .sknp 1) :=
  ⟨put 0xE19E (regs [(1, 16)]), put 0xE1A1 (regs [(1, 16)]),
    ⟨withFetchWord_canFetch _ _ _, by decide +kernel, by decide +kernel⟩,
    ⟨withFetchWord_canFetch _ _ _, by decide +kernel, by decide +kernel⟩⟩

theorem test_witness_FaultsArePrecise : ∃ (s t : State) (r : FaultRecord),
    s.fault = none ∧ step s = .next t ∧ t.fault = some r :=
  ⟨put 0xFF55 { State.reset with i := 0xFF1 }, _, ⟨.memoryOutOfRange, 0x1000, 0x200⟩, rfl, step_eq_nextOf _,
    by decide +kernel⟩

/-- One instruction of each row of the fault table. -/
theorem test_witness_OnlyListedInstructionsRaise : ∀ p ∈ [((.ret 0 : Instr), Fault.stackUnderflow),
      (.drw 0 0 1, .memoryOutOfRange), (.ldBVx 0, .memoryOutOfRange), (.ldMemVx 0, .memoryOutOfRange),
      (.ldVxMem 0, .memoryOutOfRange), (.skp 1, .keyIndexOutOfRange), (.sknp 1, .keyIndexOutOfRange)],
    ∃ (s t : State) (r : FaultRecord), s.fault = none ∧ exec p.1 s = .next t ∧ t.fault = some r ∧ r.kind = p.2 := by
  intro p hp
  refine ⟨{ regs [(1, 16)] with i := 0x1000 }, _, ((execOf p.1 { regs [(1, 16)] with i := 0x1000 }).fault).getD
    ⟨.pcOutOfRange, 0, 0⟩, rfl, exec_eq_execOf _ _, ?_⟩
  revert p
  decide +kernel

theorem test_witness_NonFaultingStepTicksTimers : ∃ s t : State, s.fault = none ∧ step s = .next t ∧ t.fault = none ∧
    (∀ x, decodeWord s.fetchWord ≠ .ldDtVx x) ∧ (∀ x, decodeWord s.fetchWord ≠ .ldStVx x) :=
  ⟨put 0x0000 { State.reset with dt := 1, st := 255 }, _, rfl, step_eq_nextOf _, by decide +kernel, by decide +kernel,
    by decide +kernel⟩

/-- One state for each listed case: the advances at 0xFFE and 0xFFD, the skip at 0xFFB, the jump, the call, the indexed
jump and the return. -/
theorem test_witness_PcLeavesMemoryOnlyByListedCases : ∀ s ∈ [{ State.reset with pc := 0xFFE },
      { State.reset with pc := 0xFFD }, put 0x3000 { State.reset with pc := 0xFFB }, put 0x1FFF State.reset,
      put 0x2FFF State.reset, put 0xBFFF (regs [(0, 1)]),
      put 0x00EE { State.reset with sp := 1, stack := State.reset.stack.set 1 0x1000 }],
    s.canFetch ∧ ∃ t, step s = .next t ∧ t.fault = none ∧ t.pc.toNat > 0xFFE := by
  intro s hs
  suffices h : (s.fault = none ∧ s.pc.toNat ≤ Config.lastFetch) ∧ (nextOf s).fault = none ∧ (nextOf s).pc.toNat > 0xFFE by
    exact ⟨h.1, _, step_eq_nextOf s, h.2⟩
  revert s
  decide +kernel

/-- An instruction the last statements quantify over, a step that sets the draw-flag before it, a step that changes
memory, an instruction that changes a register. -/
theorem test_witness_writers :
    (∃ (i : Instr) (s t : State), exec i s = .next t ∧ (∀ x, i ≠ .cls x) ∧ (∀ x y n, i ≠ .drw x y n) ∧
      (∀ nnn, i ≠ .call nnn) ∧ (∀ x, i ≠ .ret x) ∧ (∀ x, i ≠ .ldBVx x) ∧ (∀ x, i ≠ .ldMemVx x) ∧
      (∀ x, i ≠ .ldDtVx x) ∧ (∀ x, i ≠ .ldStVx x) ∧ (∀ x, i ≠ .ldVxK x) ∧ (∀ x nn, i ≠ .rnd x nn) ∧
      writesI i = false ∧ t.getV 0 ≠ s.getV 0) ∧
    (∃ s t : State, step s = .next t ∧ s.drawFlag = true) ∧
    (∃ s t : State, step s = .next t ∧ t.mem.read 0x300 ≠ s.mem.read 0x300) :=
  ⟨⟨.ldImm 0 5, State.reset, _, exec_eq_execOf _ _, by simp, by simp, by simp, by simp, by simp, by simp, by simp,
      by simp, by simp, by simp, by decide +kernel, by decide +kernel⟩,
    ⟨{ State.reset with drawFlag := true }, _, step_eq_nextOf _, rfl⟩,
    ⟨put 0xF055 { regs [(0, 7)] with i := 0x300 }, _, step_eq_nextOf _, by decide +kernel⟩⟩

/-- KeypadIsReadOnlyToEngine: an instruction that is none of the three that read the keypad, and another key. -/
theorem test_witness_KeypadIsReadOnlyToEngine : (∃ (i : Instr) (s t : State), exec i s = .next t ∧
    (∀ x, i ≠ .skp x) ∧ (∀ x, i ≠ .sknp x) ∧ (∀ x, i ≠ .ldVxK x)) ∧ (∃ s t : State, step s = .next t) ∧
    (15 : Fin 16) ≠ 0 :=
  ⟨⟨.nopE 1 0xFF, State.reset, _, exec_eq_execOf _ _, by simp, by simp, by simp⟩, ⟨State.reset, _, step_eq_nextOf _⟩,
    by decide⟩

theorem test_witness_StepKeepsInvariant : ∃ s t : State, s.inv = true ∧ step s = .next t :=
  ⟨State.reset, _, by decide +kernel, step_eq_nextOf _⟩

theorem test_witness_RunsKeepInvariant : (put 0xF055 State.reset).inv = true := by decide +kernel

theorem test_witness_FaultLastsUntilReset : ∃ (es : List Event) (s t : State), s.fault ≠ none ∧
    Event.host .reset ∉ es ∧ runEvents es s = .next t ∧ es ≠ [] :=
  ⟨[.step, .host .clearDrawFlag], { State.reset with fault := some ⟨.stackUnderflow, 0, 0x200⟩ }, _, by decide, by decide,
    rfl, by decide⟩

theorem test_witness_LoadCopiesRom : State.reset.mem.wf = true ∧ ([] : List Byte).length ≤ 3584 ∧
    (List.replicate 3584 (7 : Byte)).length ≤ 3584 :=
  ⟨rfl, by decide, List.length_replicate.le⟩

theorem test_witness_LoadRefusesLargeRom : (List.replicate 3585 (7 : Byte)).length > 3584 := by
  rw [List.length_replicate]
  decide

end Sys2Proof.Tests
end

section
/-! SUPPORT. The keypad against instructions and steps (10_state.md R32). An instruction that reads no key commutes with
replacing the keypad; with the keypad replaced by itself, that says that it writes no key either. -/

namespace Sys2Proof.Machine

/-- The state with another keypad. -/
def State.withKeypad (s : State) (keys : Vector Bool 16) : State := { s with keypad := keys }

/-- A change of the next state of a result. -/
def mapNext (f : State → State) : Result → Result
  | .next t    => .next (f t)
  | .fault r   => .fault r
  | .refused r => .refused r

/-! ## Replacing the keypad -/

@[simp] theorem withKeypad_mem (s : State) (keys : Vector Bool 16) : (s.withKeypad keys).mem = s.mem := rfl
@[simp] theorem withKeypad_i (s : State) (keys : Vector Bool 16) : (s.withKeypad keys).i = s.i := rfl
@[simp] theorem withKeypad_sp (s : State) (keys : Vector Bool 16) : (s.withKeypad keys).sp = s.sp := rfl
@[simp] theorem withKeypad_keypad (s : State) (keys : Vector Bool 16) : (s.withKeypad keys).keypad = keys := rfl

@[simp] theorem withKeypad_self (s : State) : s.withKeypad s.keypad = s := rfl

@[simp] theorem getV_withKeypad (s : State) (keys : Vector Bool 16) (x : RegIdx) :
    (s.withKeypad keys).getV x = s.getV x := rfl

@[simp] theorem regsUpTo_withKeypad (s : State) (keys : Vector Bool 16) (x : RegIdx) :
    (s.withKeypad keys).regsUpTo x = s.regsUpTo x := rfl

theorem skipIf_withKeypad (s : State) (keys : Vector Bool 16) (c : Bool) :
    (s.withKeypad keys).skipIf c = (s.skipIf c).withKeypad keys := by
  cases c <;> rfl

theorem next_skipIf_withKeypad (s : State) (keys : Vector Bool 16) (c : Bool) :
    (.next ((s.withKeypad keys).skipIf c) : Result) = mapNext (·.withKeypad keys) (.next (s.skipIf c)) :=
  congrArg _ (skipIf_withKeypad s keys c)

/-! ## Instructions -/

/-- An instruction other than the three that read the keypad does the same whatever the keypad holds (R32). Only the
branches on SP, on the skip's condition and on the bounds of a memory access need to be seen; none of them looks at a
key. -/
theorem exec_withKeypad {i : Instr} (s : State) (keys : Vector Bool 16)
    (hskp : ∀ x, i ≠ .skp x) (hsknp : ∀ x, i ≠ .sknp x) (hwait : ∀ x, i ≠ .ldVxK x) :
    exec i (s.withKeypad keys) = mapNext (·.withKeypad keys) (exec i s) := by
  cases i with
  | skp x => exact absurd rfl (hskp x)
  | sknp x => exact absurd rfl (hsknp x)
  | ldVxK x => exact absurd rfl (hwait x)
  | ret x =>
    simp only [exec, execRet, withKeypad_sp, apply_ite (mapNext _)]
    rfl
  | call nnn =>
    simp only [exec, execCall, withKeypad_sp, apply_ite (mapNext _)]
    rfl
  | seImm x nn => exact next_skipIf_withKeypad s keys _
  | sneImm x nn => exact next_skipIf_withKeypad s keys _
  | seReg x y n => exact next_skipIf_withKeypad s keys _
  | sneReg x y n => exact next_skipIf_withKeypad s keys _
  | drw x y n =>
    simp only [exec, execDrw, withKeypad_mem, withKeypad_i]
    cases s.mem.loadBlock s.i.toNat n.toNat <;> rfl
  | ldBVx x =>
    simp only [exec, execLdBVx, withKeypad_mem, withKeypad_i, getV_withKeypad]
    cases s.mem.storeBlock s.i.toNat (bcdDigits (s.getV x)) <;> rfl
  | ldMemVx x =>
    simp only [exec, execLdMemVx, withKeypad_mem, withKeypad_i, regsUpTo_withKeypad]
    cases s.mem.storeBlock s.i.toNat (s.regsUpTo x) <;> rfl
  | ldVxMem x =>
    simp only [exec, execLdVxMem, withKeypad_mem, withKeypad_i]
    cases s.mem.loadBlock s.i.toNat (x.val + 1) <;> rfl
  | _ => rfl

/-- The same, for a next state that is known. -/
theorem exec_withKeypad_next {i : Instr} {s t : State} (keys : Vector Bool 16) (he : exec i s = .next t)
    (hskp : ∀ x, i ≠ .skp x) (hsknp : ∀ x, i ≠ .sknp x) (hwait : ∀ x, i ≠ .ldVxK x) :
    exec i (s.withKeypad keys) = .next (t.withKeypad keys) := by
  rw [exec_withKeypad s keys hskp hsknp hwait, he, mapNext]

/-- Such an instruction writes no key: replacing the keypad by itself changes nothing, so it changes nothing in the next
state either, and there it puts back the keypad the instruction started with. -/
theorem exec_keypad_of_reads_no_key {i : Instr} {s t : State} (he : exec i s = .next t)
    (hskp : ∀ x, i ≠ .skp x) (hsknp : ∀ x, i ≠ .sknp x) (hwait : ∀ x, i ≠ .ldVxK x) : t.keypad = s.keypad := by
  have hself : exec i s = .next (t.withKeypad s.keypad) := exec_withKeypad_next s.keypad he hskp hsknp hwait
  have ht : t = t.withKeypad s.keypad := next_inj (he.symm.trans hself)
  rw [ht, withKeypad_keypad]

/-- No instruction writes the keypad (R32): the three that read it skip, write a register and the latch, or raise. -/
theorem exec_keypad {i : Instr} {s t : State} (he : exec i s = .next t) : t.keypad = s.keypad := by
  cases i with
  | skp x =>
    simp only [exec, execSkp] at he
    split at he <;> rw [← next_inj he]
    · exact raise_keypad s _ _
    · exact skipIf_keypad s _
  | sknp x =>
    simp only [exec, execSknp] at he
    split at he <;> rw [← next_inj he]
    · exact raise_keypad s _ _
    · exact skipIf_keypad s _
  | ldVxK x =>
    simp only [exec, execLdVxK] at he
    split at he <;> rw [← next_inj he]
    next k _ => exact setV_keypad s x (trunc8 k.val)
  | _ => exact exec_keypad_of_reads_no_key he (by simp) (by simp) (by simp)

/-! ## Steps -/

/-- No step writes the keypad: neither its instruction nor what stands around the instruction does (R32). -/
theorem step_keypad {s t : State} (hs : step s = .next t) : t.keypad = s.keypad := by
  obtain ⟨-, he⟩ | ⟨-, -, he⟩ | ⟨-, u, hu, -, he⟩ | ⟨-, k, n, -, -, he⟩ := step_cases s <;>
    rw [next_inj (hs.symm.trans he)]
  · exact stuck_keypad s
  · exact raiseAt_keypad s _ _ _
  · exact (exec_keypad hu).trans (advance_keypad s)
  · exact raiseAt_keypad s _ _ _

/-! ## The host -/

/-- The host's write of a key is read back, and every other key stays (R32). -/
theorem setKey_keypad_get (s : State) (k j : Fin 16) (pressed : Bool) :
    (s.setKey k pressed).keypad[j.val] = if j = k then pressed else s.keypad[j.val] := by
  simp [Vector.getElem_set, Fin.ext_iff, eq_comm]

/-- Settles O44: by the two frame lemmas, the commuting lemma, and the keypad after the host's write and at reset. -/
theorem keypadIsReadOnlyToEngine : Obligations.KeypadIsReadOnlyToEngine := by
  refine ⟨fun _ _ _ => exec_keypad, fun _ _ => step_keypad, ?_, ?_, ?_⟩
  · intro i s t keys he hskp hsknp hwait
    exact exec_withKeypad_next keys he hskp hsknp hwait
  · intro k pressed s
    refine ⟨?_, fun j hj => ?_, rfl⟩
    · rw [setKey_keypad_get, if_pos rfl]
    · rw [setKey_keypad_get, if_neg hj]
  · intro k
    exact Vector.getElem_replicate k.isLt

end Sys2Proof.Machine
end

section
/-! SUPPORT. The words that the decoder's second dispatch leaves to the catch-all rows of families 0, 8, E and F
(30_encoding.md R73, R74), and what those rows do (R112, R161, R223, R239). -/

namespace Sys2Proof

/-! ## The families that dispatch a second time -/

theorem decodeWord_of_family0 {w : Word} (hop : w.toNat / 4096 = 0x0) : decodeWord w = decodeFamily0 w := by
  simp only [decodeWord, opField_toNat, hop]

theorem decodeWord_of_family8 {w : Word} (hop : w.toNat / 4096 = 0x8) : decodeWord w = decodeFamily8 w := by
  simp only [decodeWord, opField_toNat, hop]

theorem decodeWord_of_familyE {w : Word} (hop : w.toNat / 4096 = 0xE) : decodeWord w = decodeFamilyE w := by
  simp only [decodeWord, opField_toNat, hop]

theorem decodeWord_of_familyF {w : Word} (hop : w.toNat / 4096 = 0xF) : decodeWord w = decodeFamilyF w := by
  simp only [decodeWord, opField_toNat, hop]

/-! ## Their catch-all rows

In each proof the last row of the dispatch is the claim, and a selector of any other row is one that the premises
exclude. -/

/-- Family 0 outside its selectors E0 and EE (R74(a)). -/
theorem decodeFamily0_eq_sys {w : Word} (hE0 : w.toNat % 256 ≠ 0xE0) (hEE : w.toNat % 256 ≠ 0xEE) :
    decodeFamily0 w = .sys (nnnField w) := by
  rw [← nnField_toNat] at hE0 hEE
  unfold decodeFamily0
  split
  case h_3 => rfl
  all_goals omega

/-- Family 8 outside its selectors 0 to 7 and E (R74(d)). -/
theorem decodeFamily8_eq_nop8 {w : Word} (h7 : 7 < w.toNat % 16) (hE : w.toNat % 16 ≠ 0xE) :
    decodeFamily8 w = .nop8 (xField w) (yField w) (nField w) := by
  rw [← nField_toNat] at h7 hE
  unfold decodeFamily8
  split
  case h_10 => rfl
  all_goals omega

/-- Family E outside its selectors 9E and A1 (R74(b)). -/
theorem decodeFamilyE_eq_nopE {w : Word} (h9E : w.toNat % 256 ≠ 0x9E) (hA1 : w.toNat % 256 ≠ 0xA1) :
    decodeFamilyE w = .nopE (xField w) (nnField w) := by
  rw [← nnField_toNat] at h9E hA1
  unfold decodeFamilyE
  split
  case h_3 => rfl
  all_goals omega

/-- Family F outside its nine selectors (R74(c)). -/
theorem decodeFamilyF_eq_nopF {w : Word}
    (h : w.toNat % 256 ∉ [0x07, 0x0A, 0x15, 0x18, 0x1E, 0x29, 0x33, 0x55, 0x65]) :
    decodeFamilyF w = .nopF (xField w) (nnField w) := by
  rw [← nnField_toNat] at h
  simp only [List.mem_cons, not_or] at h
  unfold decodeFamilyF
  split
  case h_10 => rfl
  all_goals omega

end Sys2Proof

namespace Sys2Proof.Machine

/-! ## What the catch-all rows do -/

@[simp] theorem exec_sys (nnn : Imm12) (s : State) : exec (.sys nnn) s = .next s := rfl
@[simp] theorem exec_nop8 (x y : RegIdx) (n : Nibble) (s : State) : exec (.nop8 x y n) s = .next s := rfl
@[simp] theorem exec_nopE (x : RegIdx) (nn : Byte) (s : State) : exec (.nopE x nn) s = .next s := rfl
@[simp] theorem exec_nopF (x : RegIdx) (nn : Byte) (s : State) : exec (.nopF x nn) s = .next s := rfl

/-- Settles O6: a word of each range decodes to the catch-all row of its family, and that row does nothing. -/
theorem noOpWordsHaveNoEffect : Obligations.NoOpWordsHaveNoEffect := by
  intro s
  refine ⟨fun nnn => exec_sys nnn s, fun x y n => exec_nop8 x y n s, fun x nn => exec_nopE x nn s,
    fun x nn => exec_nopF x nn s, ?_⟩
  rintro w (⟨hop, hE0, hEE⟩ | ⟨hop, h7, hE⟩ | ⟨hop, h9E, hA1⟩ | ⟨hop, hsel⟩)
  · rw [decodeWord_of_family0 hop, decodeFamily0_eq_sys hE0 hEE, exec_sys]
  · rw [decodeWord_of_family8 hop, decodeFamily8_eq_nop8 h7 hE, exec_nop8]
  · rw [decodeWord_of_familyE hop, decodeFamilyE_eq_nopE h9E hA1, exec_nopE]
  · rw [decodeWord_of_familyF hop, decodeFamilyF_eq_nopF hsel, exec_nopF]

end Sys2Proof.Machine
end

section
/-! SUPPORT. The skips of families 3, 4, 5 and 9 (R130 to R132, R180), and the load and the add of an immediate of
families 6 and 7 (R133, R134): the instruction of each family's words, and each instruction's next state. -/

namespace Sys2Proof

/-! ## The words of the families, decided by `op` alone (R73) -/

theorem decodeWord_of_family3 {w : Word} (hop : w.toNat / 4096 = 0x3) :
    decodeWord w = .seImm (xField w) (nnField w) := by
  simp only [decodeWord, opField_toNat, hop]

theorem decodeWord_of_family4 {w : Word} (hop : w.toNat / 4096 = 0x4) :
    decodeWord w = .sneImm (xField w) (nnField w) := by
  simp only [decodeWord, opField_toNat, hop]

theorem decodeWord_of_family5 {w : Word} (hop : w.toNat / 4096 = 0x5) :
    decodeWord w = .seReg (xField w) (yField w) (nField w) := by
  simp only [decodeWord, opField_toNat, hop]

theorem decodeWord_of_family6 {w : Word} (hop : w.toNat / 4096 = 0x6) :
    decodeWord w = .ldImm (xField w) (nnField w) := by
  simp only [decodeWord, opField_toNat, hop]

theorem decodeWord_of_family7 {w : Word} (hop : w.toNat / 4096 = 0x7) :
    decodeWord w = .addImm (xField w) (nnField w) := by
  simp only [decodeWord, opField_toNat, hop]

theorem decodeWord_of_family9 {w : Word} (hop : w.toNat / 4096 = 0x9) :
    decodeWord w = .sneReg (xField w) (yField w) (nField w) := by
  simp only [decodeWord, opField_toNat, hop]

end Sys2Proof

namespace Sys2Proof.Machine

/-! ## What the instructions do -/

@[simp] theorem exec_seImm (x : RegIdx) (nn : Byte) (s : State) :
    exec (.seImm x nn) s = .next (s.skipIf (s.getV x == nn)) := rfl

@[simp] theorem exec_sneImm (x : RegIdx) (nn : Byte) (s : State) :
    exec (.sneImm x nn) s = .next (s.skipIf (s.getV x != nn)) := rfl

@[simp] theorem exec_seReg (x y : RegIdx) (n : Nibble) (s : State) :
    exec (.seReg x y n) s = .next (s.skipIf (s.getV x == s.getV y)) := rfl

@[simp] theorem exec_sneReg (x y : RegIdx) (n : Nibble) (s : State) :
    exec (.sneReg x y n) s = .next (s.skipIf (s.getV x != s.getV y)) := rfl

@[simp] theorem exec_ldImm (x : RegIdx) (nn : Byte) (s : State) : exec (.ldImm x nn) s = .next (s.setV x nn) := rfl

@[simp] theorem exec_addImm (x : RegIdx) (nn : Byte) (s : State) :
    exec (.addImm x nn) s = .next (s.setV x (sum8 (s.getV x) nn)) := rfl

/-! ## Where a skip on a comparison leaves PC -/

/-- A skip on equality adds 2 when the bytes agree. -/
theorem skipIf_beq_pc_toNat (s : State) (a b : Byte) :
    (s.skipIf (a == b)).pc.toNat = (s.pc.toNat + if a = b then 2 else 0) % 65536 := by
  simp only [skipIf_pc_toNat, beq_iff_eq]

/-- A skip on inequality adds 2 when the bytes differ. -/
theorem skipIf_bne_pc_toNat (s : State) (a b : Byte) :
    (s.skipIf (a != b)).pc.toNat = (s.pc.toNat + if a = b then 0 else 2) % 65536 := by
  simp only [skipIf_pc_toNat, bne_iff_ne, ite_not]

/-- A skip on the equality of a byte with itself always happens. -/
theorem skipIf_beq_self_pc_toNat (s : State) (a : Byte) :
    (s.skipIf (a == a)).pc.toNat = (s.pc.toNat + 2) % 65536 := by
  rw [skipIf_beq_pc_toNat, if_pos rfl]

/-- A skip on the inequality of a byte with itself never happens. -/
theorem skipIf_bne_self (s : State) (a : Byte) : s.skipIf (a != a) = s := by
  rw [bne_self_eq_false]
  rfl

/-- The sum wraps at 8 bits (R8, R134). -/
@[simp] theorem sum8_toNat (a b : Byte) : (sum8 a b).toNat = (a.toNat + b.toNat) % 256 := trunc8_toNat _

/-! ## The families -/

/-- Settles O12: both instructions are a skip, on the equality and on the inequality of V[X] and NN. -/
theorem immediateSkips : Obligations.ImmediateSkips := by
  refine ⟨fun w => ⟨decodeWord_of_family3, decodeWord_of_family4⟩, fun x nn s => ⟨?_, ?_⟩⟩
  · exact ⟨_, exec_seImm x nn s, skipIf_onlyPc s _, skipIf_beq_pc_toNat s _ _⟩
  · exact ⟨_, exec_sneImm x nn s, skipIf_onlyPc s _, skipIf_bne_pc_toNat s _ _⟩

/-- Settles O13: as O12, on V[X] and V[Y]; with X = Y a register is compared with itself. -/
theorem registerSkips : Obligations.RegisterSkips := by
  refine ⟨fun w => ⟨decodeWord_of_family5, decodeWord_of_family9⟩, fun x y n s => ⟨?_, ?_⟩⟩
  · refine ⟨_, exec_seReg x y n s, skipIf_onlyPc s _, skipIf_beq_pc_toNat s _ _, ?_⟩
    rintro rfl
    exact skipIf_beq_self_pc_toNat s _
  · refine ⟨_, exec_sneReg x y n s, skipIf_onlyPc s _, skipIf_bne_pc_toNat s _ _, ?_⟩
    rintro rfl
    exact congrArg State.pc (skipIf_bne_self s _)

/-- Settles O14: both instructions write V[X] and nothing else, so no flag either. -/
theorem immediateLoadAndAdd : Obligations.ImmediateLoadAndAdd := by
  refine ⟨fun w => ⟨decodeWord_of_family6, decodeWord_of_family7⟩, fun x nn s => ⟨?_, ?_⟩⟩
  · exact ⟨_, exec_ldImm x nn s, getV_setV_same s x nn, setV_onlyReg s x nn⟩
  · refine ⟨_, exec_addImm x nn s, ?_, setV_onlyReg s x _⟩
    rw [getV_setV_same, sum8_toNat]

end Sys2Proof.Machine
end

section
/-! SUPPORT. The move and the bitwise operations of family 8 (R152 to R155): the instruction of each selector, and each
instruction's next state. -/

namespace Sys2Proof

/-! ## The selectors 0 to 3 (R74(d)) -/

theorem decodeFamily8_eq_ldReg {w : Word} (hn : w.toNat % 16 = 0x0) :
    decodeFamily8 w = .ldReg (xField w) (yField w) := by
  simp only [decodeFamily8, nField_toNat, hn]

theorem decodeFamily8_eq_or {w : Word} (hn : w.toNat % 16 = 0x1) :
    decodeFamily8 w = .or (xField w) (yField w) := by
  simp only [decodeFamily8, nField_toNat, hn]

theorem decodeFamily8_eq_and {w : Word} (hn : w.toNat % 16 = 0x2) :
    decodeFamily8 w = .and (xField w) (yField w) := by
  simp only [decodeFamily8, nField_toNat, hn]

theorem decodeFamily8_eq_xor {w : Word} (hn : w.toNat % 16 = 0x3) :
    decodeFamily8 w = .xor (xField w) (yField w) := by
  simp only [decodeFamily8, nField_toNat, hn]

end Sys2Proof

namespace Sys2Proof.Machine

/-! ## What the instructions do -/

@[simp] theorem exec_ldReg (x y : RegIdx) (s : State) : exec (.ldReg x y) s = .next (s.setV x (s.getV y)) := rfl

@[simp] theorem exec_or (x y : RegIdx) (s : State) :
    exec (.or x y) s = .next (s.setV x (s.getV x ||| s.getV y)) := rfl

@[simp] theorem exec_and (x y : RegIdx) (s : State) :
    exec (.and x y) s = .next (s.setV x (s.getV x &&& s.getV y)) := rfl

@[simp] theorem exec_xor (x y : RegIdx) (s : State) :
    exec (.xor x y) s = .next (s.setV x (s.getV x ^^^ s.getV y)) := rfl

/-- Settles O15: each selector's instruction writes V[X] and nothing else, so no flag either, and the bits of the byte
written are those of the bitwise operation. -/
theorem moveAndLogic : Obligations.MoveAndLogic := by
  refine ⟨fun w hop => ?_, fun x y s => ⟨?_, ?_, ?_, ?_⟩⟩
  · rw [decodeWord_of_family8 hop]
    exact ⟨decodeFamily8_eq_ldReg, decodeFamily8_eq_or, decodeFamily8_eq_and, decodeFamily8_eq_xor⟩
  · exact ⟨_, exec_ldReg x y s, getV_setV_same s x _, setV_onlyReg s x _⟩
  · refine ⟨_, exec_or x y s, setV_onlyReg s x _, fun k _ => ?_⟩
    rw [getV_setV_same, BitVec.getLsbD_or]
  · refine ⟨_, exec_and x y s, setV_onlyReg s x _, fun k _ => ?_⟩
    rw [getV_setV_same, BitVec.getLsbD_and]
  · refine ⟨_, exec_xor x y s, setV_onlyReg s x _, fun k _ => ?_⟩
    rw [getV_setV_same, BitVec.getLsbD_xor, Bool.bne_eq_xor]

end Sys2Proof.Machine
end

section
/-! SUPPORT. The instructions whose one effect is to set I: ANNN (R181), FX1E (R234) and FX29 (R235). The words of each,
and each one's next state. -/

namespace Sys2Proof

/-! ## The words: family A, decided by `op` alone (R73), and two selectors of family F (R74(c)) -/

theorem decodeWord_of_familyA {w : Word} (hop : w.toNat / 4096 = 0xA) : decodeWord w = .ldI (nnnField w) := by
  simp only [decodeWord, opField_toNat, hop]

theorem decodeFamilyF_eq_addIVx {w : Word} (hnn : w.toNat % 256 = 0x1E) : decodeFamilyF w = .addIVx (xField w) := by
  simp only [decodeFamilyF, nnField_toNat, hnn]

theorem decodeFamilyF_eq_ldFVx {w : Word} (hnn : w.toNat % 256 = 0x29) : decodeFamilyF w = .ldFVx (xField w) := by
  simp only [decodeFamilyF, nnField_toNat, hnn]

end Sys2Proof

namespace Sys2Proof.Machine

/-! ## What the instructions do -/

@[simp] theorem exec_ldI (nnn : Imm12) (s : State) : exec (.ldI nnn) s = .next { s with i := addrOf nnn } := rfl

@[simp] theorem exec_addIVx (x : RegIdx) (s : State) :
    exec (.addIVx x) s = .next { s with i := trunc16 (s.i.toNat + (s.getV x).toNat) } := rfl

@[simp] theorem exec_ldFVx (x : RegIdx) (s : State) :
    exec (.ldFVx x) s = .next { s with i := glyphAddr (s.getV x) } := rfl

/-- The two states differ in I only. -/
def OnlyI (s t : State) : Prop := t = { s with i := t.i } ∧ SameMemory s t

theorem withI_onlyI (s : State) (a : Word) : OnlyI s { s with i := a } := ⟨rfl, fun _ => rfl⟩

/-- Settles O20: each instruction sets I and nothing else, and the address it sets is the operand form of its rule. Only
the sum of FX1E can wrap: NNN and V[X] * 5 lie below 65536. -/
theorem addressRegisterWrites : Obligations.AddressRegisterWrites := by
  refine ⟨fun w => ⟨decodeWord_of_familyA, fun hop hnn => ?_, fun hop hnn => ?_⟩, fun s => ⟨?_, ?_, ?_⟩⟩
  · rw [decodeWord_of_familyF hop, decodeFamilyF_eq_addIVx hnn]
  · rw [decodeWord_of_familyF hop, decodeFamilyF_eq_ldFVx hnn]
  · exact fun nnn => ⟨_, exec_ldI nnn s, addrOf_toNat nnn, withI_onlyI s _⟩
  · exact fun x => ⟨_, exec_addIVx x s, trunc16_toNat _, withI_onlyI s _⟩
  · exact fun x => ⟨_, exec_ldFVx x s, glyphAddr_toNat _, withI_onlyI s _⟩

end Sys2Proof.Machine
end

section
/-! SUPPORT. The host's load (70_reset_and_hazards.md R292, R293): what it answers for a ROM that fits and for one that
does not, and the host's action of each answer. -/

namespace Sys2Proof.Machine

/-- A ROM of at most `MAX_ROM` bytes is copied to `PROG_BASE` (R292). -/
theorem load_eq_ok (s : State) {bytes : List Byte} (h : bytes.length ≤ Config.maxRom) :
    s.load bytes = .ok { s with mem := s.mem.copyIn Config.progBase bytes } :=
  if_neg (Nat.not_lt.2 h)

/-- A longer ROM is refused (R293). -/
theorem load_eq_error (s : State) {bytes : List Byte} (h : Config.maxRom < bytes.length) :
    s.load bytes = .error .romTooLarge :=
  if_pos h

/-- A load that fails leaves the host with the state it had (R293). -/
theorem apply_load_of_error {s : State} {bytes : List Byte} {e : LoadError} (h : s.load bytes = .error e) :
    (HostAction.load bytes).apply s = s := by
  simp only [HostAction.apply, h]

/-- A ROM that `load` accepts ends within memory: `PROG_BASE` and `MAX_ROM` add up to the size of memory (R5). -/
theorem rom_fits {n : Nat} (h : n ≤ Config.maxRom) : Config.progBase + n ≤ Config.memSize :=
  Nat.add_le_add_left h Config.progBase

/-- Settles O55: the state answered is the one with the ROM copied in, and what reads back of it, within its range and
outside, is what the laws of `copyIn` say. -/
theorem loadCopiesRom : Obligations.LoadCopiesRom := by
  intro s bytes hwf hlen
  refine ⟨_, load_eq_ok s hlen, fun k hk => ?_, fun a ha => ?_, rfl, ?_⟩
  · exact read_copyIn s.mem bytes hwf (rom_fits hlen) hk
  · exact read_copyIn_outside s.mem bytes ha
  · rintro rfl
    rfl

/-- Settles O56: the load is refused, and a refused load leaves the state as it was. -/
theorem loadRefusesLargeRom : Obligations.LoadRefusesLargeRom := by
  intro s bytes hlen
  have hload : s.load bytes = .error .romTooLarge := load_eq_error s hlen
  exact ⟨hload, apply_load_of_error hload⟩

end Sys2Proof.Machine
end

section
/-! SUPPORT. Decoder and encoder against each other (30_encoding.md R70 to R79): every well-formed instruction is what
its word decodes to, and every word is that of the instruction it decodes to. -/

namespace Sys2Proof

/-! ## The packed forms the encoder writes for the rows that do not examine `x` -/

theorem encode_cls (x : Nibble) : encode (.cls x) = packXNN 0x0 x.toFin 0xE0 := by
  simp [encode, packXNN, Nat.add_comm]

theorem encode_ret (x : Nibble) : encode (.ret x) = packXNN 0x0 x.toFin 0xEE := by
  simp [encode, packXNN, Nat.add_comm]

@[simp] theorem xBits_packXNN (op : Nibble) (x : RegIdx) (nn : Byte) : xBits (packXNN op x nn) = BitVec.ofFin x := by
  apply BitVec.eq_of_toNat_eq
  rw [xBits_toNat, ← xField_val, xField_packXNN]
  rfl

/-! ## Selectors as numbers -/

/-- A field is a selector exactly when its number is one of the selectors' numbers. -/
theorem contains_iff_toNat_mem {n : Nat} (selectors : List (BitVec n)) (b : BitVec n) :
    selectors.contains b = true ↔ b.toNat ∈ selectors.map BitVec.toNat := by
  rw [List.contains_iff_mem, List.mem_map_of_injective fun _ _ => BitVec.eq_of_toNat_eq]

theorem wellFormed_sys_iff (nnn : Imm12) :
    (Instr.sys nnn).wellFormed = true ↔ nnn.toNat % 256 ∉ [0xE0, 0xEE] := by
  rw [Instr.wellFormed, Bool.not_eq_true', ← Bool.not_eq_true, contains_iff_toNat_mem]
  simp [family0Selectors]

theorem wellFormed_nop8_iff (x y : RegIdx) (n : Nibble) :
    (Instr.nop8 x y n).wellFormed = true ↔ 7 < n.toNat ∧ n.toNat ≠ 0xE := by
  rw [Instr.wellFormed, Bool.not_eq_true', ← Bool.not_eq_true, contains_iff_toNat_mem]
  simp [family8Selectors]
  omega

theorem wellFormed_nopE_iff (x : RegIdx) (nn : Byte) :
    (Instr.nopE x nn).wellFormed = true ↔ nn.toNat ∉ [0x9E, 0xA1] := by
  rw [Instr.wellFormed, Bool.not_eq_true', ← Bool.not_eq_true, contains_iff_toNat_mem]
  simp [familyESelectors]

theorem wellFormed_nopF_iff (x : RegIdx) (nn : Byte) :
    (Instr.nopF x nn).wellFormed = true ↔
      nn.toNat ∉ [0x07, 0x0A, 0x15, 0x18, 0x1E, 0x29, 0x33, 0x55, 0x65] := by
  rw [Instr.wellFormed, Bool.not_eq_true', ← Bool.not_eq_true, contains_iff_toNat_mem]
  simp [familyFSelectors]

/-! ## Decoding a packed word -/

/-- Every well-formed instruction is the one its word decodes to (R74, R79): the row's digits select it, and the fields
give back its operands. The catch-all rows are selected because a well-formed one carries no other row's selector. -/
theorem decodeWord_encode {i : Instr} (h : i.wellFormed = true) : decodeWord (encode i) = i := by
  cases i with
  | cls x => simp [encode_cls, decodeWord, decodeFamily0]
  | ret x => simp [encode_ret, decodeWord, decodeFamily0]
  | sys nnn =>
    rw [wellFormed_sys_iff, List.mem_pair, not_or] at h
    obtain ⟨hE0, hEE⟩ := h
    have hop : (encode (.sys nnn)).toNat / 4096 = 0x0 := by rw [← opField_toNat, Laws.EncodedFamily.sys]; rfl
    have hnn : (encode (.sys nnn)).toNat % 256 = nnn.toNat % 256 := by simp [← nnField_toNat, encode]
    rw [decodeWord_of_family0 hop, decodeFamily0_eq_sys (hnn.trans_ne hE0) (hnn.trans_ne hEE)]
    simp [encode]
  | nop8 x y n =>
    obtain ⟨h7, hE⟩ := (wellFormed_nop8_iff x y n).1 h
    have hop : (encode (.nop8 x y n)).toNat / 4096 = 0x8 := by rw [← opField_toNat, Laws.EncodedFamily.nop8]; rfl
    have hn : (encode (.nop8 x y n)).toNat % 16 = n.toNat := by simp [← nField_toNat, encode]
    rw [decodeWord_of_family8 hop, decodeFamily8_eq_nop8 (hn ▸ h7) (hn.trans_ne hE)]
    simp [encode]
  | nopE x nn =>
    rw [wellFormed_nopE_iff, List.mem_pair, not_or] at h
    obtain ⟨h9E, hA1⟩ := h
    have hop : (encode (.nopE x nn)).toNat / 4096 = 0xE := by rw [← opField_toNat, Laws.EncodedFamily.nopE]; rfl
    have hnn : (encode (.nopE x nn)).toNat % 256 = nn.toNat := by simp [← nnField_toNat, encode]
    rw [decodeWord_of_familyE hop, decodeFamilyE_eq_nopE (hnn.trans_ne h9E) (hnn.trans_ne hA1)]
    simp [encode]
  | nopF x nn =>
    rw [wellFormed_nopF_iff] at h
    have hop : (encode (.nopF x nn)).toNat / 4096 = 0xF := by rw [← opField_toNat, Laws.EncodedFamily.nopF]; rfl
    have hnn : (encode (.nopF x nn)).toNat % 256 = nn.toNat := by simp [← nnField_toNat, encode]
    rw [decodeWord_of_familyF hop, decodeFamilyF_eq_nopF (by rwa [hnn])]
    simp [encode]
  | _ => simp [encode, decodeWord, decodeFamily8, decodeFamilyE, decodeFamilyF]

/-- Settles O1: the instruction's word decodes to it, and its bytes are read as that word. -/
theorem decodeOfEncodeIsIdentity : Obligations.DecodeOfEncodeIsIdentity := by
  intro i rest hwf
  have hword : decodeWord (encode i) = i := decodeWord_encode hwf
  exact ⟨hword, by rw [decode_bytesOfWord, hword]⟩

/-! ## Packing a decoded word -/

theorem packNNN_of_op {w : Word} {k : Nat} (hop : (opField w).toNat = k) :
    packNNN (BitVec.ofNat 4 k) (nnnField w) = w := by
  rw [← hop, BitVec.ofNat_toNat, BitVec.setWidth_eq, packNNN_fields]

theorem packXNN_of_op {w : Word} {k : Nat} (hop : (opField w).toNat = k) :
    packXNN (BitVec.ofNat 4 k) (xField w) (nnField w) = w := by
  rw [← hop, BitVec.ofNat_toNat, BitVec.setWidth_eq, packXNN_fields]

theorem packXYN_of_op {w : Word} {k : Nat} (hop : (opField w).toNat = k) :
    packXYN (BitVec.ofNat 4 k) (xField w) (yField w) (nField w) = w := by
  rw [← hop, BitVec.ofNat_toNat, BitVec.setWidth_eq, packXYN_fields]

theorem packXNN_of_op_nn {w : Word} {k l : Nat} (hop : (opField w).toNat = k) (hnn : (nnField w).toNat = l) :
    packXNN (BitVec.ofNat 4 k) (xField w) (BitVec.ofNat 8 l) = w := by
  rw [← hnn, BitVec.ofNat_toNat, BitVec.setWidth_eq, packXNN_of_op hop]

theorem packXYN_of_op_n {w : Word} {k l : Nat} (hop : (opField w).toNat = k) (hn : (nField w).toNat = l) :
    packXYN (BitVec.ofNat 4 k) (xField w) (yField w) (BitVec.ofNat 4 l) = w := by
  rw [← hn, BitVec.ofNat_toNat, BitVec.setWidth_eq, packXYN_of_op hop]

/-- An instruction stands for a word: it is well formed and the word is its own. -/
def StandsFor (i : Instr) (w : Word) : Prop := i.wellFormed = true ∧ encode i = w

theorem decodeFamily0_standsFor {w : Word} (hop : (opField w).toNat = 0x0) : StandsFor (decodeFamily0 w) w := by
  unfold decodeFamily0
  split
  · next hnn => exact ⟨rfl, (encode_cls _).trans (packXNN_of_op_nn hop hnn)⟩
  · next hnn => exact ⟨rfl, (encode_ret _).trans (packXNN_of_op_nn hop hnn)⟩
  · next hE0 hEE =>
    refine ⟨(wellFormed_sys_iff _).2 ?_, packNNN_of_op hop⟩
    rw [nnField_toNat] at hE0 hEE
    rw [nnnField_toNat, Nat.mod_mod_of_dvd _ (by decide), List.mem_pair]
    exact not_or.2 ⟨hE0, hEE⟩

theorem decodeFamily8_standsFor {w : Word} (hop : (opField w).toNat = 0x8) : StandsFor (decodeFamily8 w) w := by
  unfold decodeFamily8
  split
  case h_10 h0 h1 h2 h3 h4 h5 h6 h7 hE =>
    refine ⟨(wellFormed_nop8_iff _ _ _).2 ⟨?_, hE⟩, packXYN_of_op hop⟩
    simp only [imp_false] at h0 h1 h2 h3 h4 h5 h6 h7
    omega
  all_goals exact ⟨rfl, packXYN_of_op_n hop ‹_›⟩

theorem decodeFamilyE_standsFor {w : Word} (hop : (opField w).toNat = 0xE) : StandsFor (decodeFamilyE w) w := by
  unfold decodeFamilyE
  split
  case h_3 h9E hA1 =>
    refine ⟨(wellFormed_nopE_iff _ _).2 ?_, packXNN_of_op hop⟩
    rw [List.mem_pair]
    exact not_or.2 ⟨h9E, hA1⟩
  all_goals exact ⟨rfl, packXNN_of_op_nn hop ‹_›⟩

theorem decodeFamilyF_standsFor {w : Word} (hop : (opField w).toNat = 0xF) : StandsFor (decodeFamilyF w) w := by
  unfold decodeFamilyF
  split
  case h_10 h07 h0A h15 h18 h1E h29 h33 h55 h65 =>
    refine ⟨(wellFormed_nopF_iff _ _).2 ?_, packXNN_of_op hop⟩
    simp only [List.mem_cons, List.not_mem_nil, or_false, not_or]
    exact ⟨h07, h0A, h15, h18, h1E, h29, h33, h55, h65⟩
  all_goals exact ⟨rfl, packXNN_of_op_nn hop ‹_›⟩

/-- Every word is the word of the well-formed instruction it decodes to (R73, R77): the decoder keeps every field. -/
theorem decodeWord_standsFor (w : Word) : StandsFor (decodeWord w) w := by
  unfold decodeWord
  split
  case h_1 hop => exact decodeFamily0_standsFor hop
  case h_9 hop => exact decodeFamily8_standsFor hop
  case h_15 hop => exact decodeFamilyE_standsFor hop
  case h_2 hop | h_3 hop | h_11 hop | h_12 hop => exact ⟨rfl, packNNN_of_op hop⟩
  case h_4 hop | h_5 hop | h_7 hop | h_8 hop | h_13 hop => exact ⟨rfl, packXNN_of_op hop⟩
  case h_6 hop | h_10 hop | h_14 hop => exact ⟨rfl, packXYN_of_op hop⟩
  case h_16 =>
    refine decodeFamilyF_standsFor ?_
    have := (opField w).isLt
    simp only [imp_false] at *
    omega

theorem decodeWord_wellFormed (w : Word) : (decodeWord w).wellFormed = true := (decodeWord_standsFor w).1

theorem encode_decodeWord (w : Word) : encode (decodeWord w) = w := (decodeWord_standsFor w).2

/-- Settles O2: the decoded instruction stands for its word. -/
theorem encodeOfDecodeIsIdentity : Obligations.EncodeOfDecodeIsIdentity :=
  fun w => ⟨decodeWord_wellFormed w, encode_decodeWord w⟩

end Sys2Proof
end

section
/-! SUPPORT. The decoder against the opcode map (30_encoding.md R79). The row of an instruction is its mnemonic, the mask
of the bits that its row fixes, and those bits of its word; so the row selects that word by its form alone, and what is
left to see is that it is a row of the map, and that no row before it selects the word. -/

namespace Sys2Proof

/-! ## Masks and fields -/

theorem opField_and (w u : Word) : opField (w &&& u) = opField w &&& opField u := BitVec.extractLsb'_and

theorem xBits_and (w u : Word) : xBits (w &&& u) = xBits w &&& xBits u := BitVec.extractLsb'_and

theorem nnField_and (w u : Word) : nnField (w &&& u) = nnField w &&& nnField u := BitVec.extractLsb'_and

theorem nField_and (w u : Word) : nField (w &&& u) = nField w &&& nField u := BitVec.extractLsb'_and

theorem word_ext {w u : Word} (hop : opField w = opField u) (hx : xBits w = xBits u)
    (hnn : nnField w = nnField u) : w = u := by
  have hxf : xField w = xField u := congrArg BitVec.toFin hx
  rw [← packXNN_fields w, ← packXNN_fields u, hop, hxf, hnn]

/-- The mask of a row that `op` alone selects. -/
theorem and_F000 (w : Word) : w &&& 0xF000#16 = packXNN (opField w) 0 0 := by
  refine word_ext ?_ ?_ ?_
  · rw [opField_and, opField_packXNN]
    exact BitVec.and_allOnes
  · rw [xBits_and, xBits_packXNN]
    exact BitVec.and_zero
  · rw [nnField_and, nnField_packXNN]
    exact BitVec.and_zero

/-- The mask of a row that `op` and NN select. -/
theorem and_F0FF (w : Word) : w &&& 0xF0FF#16 = packXNN (opField w) 0 (nnField w) := by
  refine word_ext ?_ ?_ ?_
  · rw [opField_and, opField_packXNN]
    exact BitVec.and_allOnes
  · rw [xBits_and, xBits_packXNN]
    exact BitVec.and_zero
  · rw [nnField_and, nnField_packXNN]
    exact BitVec.and_allOnes

/-- The mask of a row that `op` and N select. -/
theorem and_F00F (w : Word) : w &&& 0xF00F#16 = packXNN (opField w) 0 ((nField w).setWidth 8) := by
  refine word_ext ?_ ?_ ?_
  · rw [opField_and, opField_packXNN]
    exact BitVec.and_allOnes
  · rw [xBits_and, xBits_packXNN]
    exact BitVec.and_zero
  · rw [nnField_and, nnField_packXNN]
    apply BitVec.eq_of_toNat_eq
    have hlow : (nnField w).toNat &&& (2 ^ 4 - 1) = w.toNat % 16 := by
      rw [nnField_toNat, Nat.and_two_pow_sub_one_eq_mod, Nat.mod_mod_of_dvd _ (by decide)]
    have hfit : w.toNat % 16 % 2 ^ 8 = w.toNat % 16 := Nat.mod_eq_of_lt (by omega)
    rw [BitVec.toNat_and, BitVec.toNat_setWidth, nField_toNat, hfit]
    exact hlow

/-! ## The row of an instruction -/

/-- The mask of an instruction's row: the bits of the word that its row fixes (R79). -/
def Instr.rowMask : Instr → Word
  | .cls _ | .ret _ | .skp _ | .sknp _ => 0xF0FF
  | .ldVxDt _ | .ldVxK _ | .ldDtVx _ | .ldStVx _ | .addIVx _ | .ldFVx _ | .ldBVx _ | .ldMemVx _ | .ldVxMem _ => 0xF0FF
  | .ldReg _ _ | .or _ _ | .and _ _ | .xor _ _ | .addReg _ _ | .sub _ _ | .shr _ _ | .subn _ _ | .shl _ _ => 0xF00F
  | _ => 0xF000

/-- The row of an instruction. -/
def Instr.row (i : Instr) : OpcodeRow := ⟨i.mnemonic, i.rowMask, encode i &&& i.rowMask⟩

theorem row_selects (i : Instr) : i.row.selects (encode i) = true := BEq.rfl

/-- Whether an instruction's row is one of the catch-alls (priority 2 in R79). -/
def Instr.isCatchAll : Instr → Bool
  | .sys _ | .nop8 _ _ _ | .nopE _ _ | .nopF _ _ => true
  | _ => false

theorem row_mem_opcodeRows1 {i : Instr} (h : i.isCatchAll = false) : i.row ∈ opcodeRows1 := by
  cases i with
  | sys | nop8 | nopE | nopF => cases h
  | cls x =>
    simp [Instr.row, Instr.rowMask, Instr.mnemonic, encode_cls, and_F0FF, opcodeRows1]
    rfl
  | ret x =>
    simp [Instr.row, Instr.rowMask, Instr.mnemonic, encode_ret, and_F0FF, opcodeRows1]
    rfl
  | _ =>
    simp [Instr.row, Instr.rowMask, Instr.mnemonic, encode, and_F000, and_F00F, and_F0FF, opcodeRows1]
    rfl

theorem row_mem_opcodeRows2 {i : Instr} (h : i.isCatchAll = true) : i.row ∈ opcodeRows2 := by
  cases i with
  | sys | nop8 | nopE | nopF =>
    simp [Instr.row, Instr.rowMask, Instr.mnemonic, encode, and_F000, opcodeRows2]
    rfl
  | _ => cases h

/-! ## What a row that selects a word says of the word's fields -/

theorem selects_iff (r : OpcodeRow) (w : Word) : r.selects w = true ↔ w &&& r.mask = r.matchBits := beq_iff_eq

theorem opField_of_selects {r : OpcodeRow} {w : Word} (hr : r ∈ opcodeRows1) (hs : r.selects w = true) :
    opField w = opField r.matchBits := by
  have hmask : ∀ q ∈ opcodeRows1, opField q.mask = 0xF := by decide
  rw [← (selects_iff r w).1 hs, opField_and, hmask r hr]
  exact BitVec.and_allOnes.symm

theorem nnField_of_selects {r : OpcodeRow} {w : Word} (hmask : nnField r.mask = 0xFF) (hs : r.selects w = true) :
    nnField w = nnField r.matchBits := by
  rw [← (selects_iff r w).1 hs, nnField_and, hmask]
  exact BitVec.and_allOnes.symm

theorem nField_of_selects {r : OpcodeRow} {w : Word} (hmask : nField r.mask = 0xF) (hs : r.selects w = true) :
    nField w = nField r.matchBits := by
  rw [← (selects_iff r w).1 hs, nField_and, hmask]
  exact BitVec.and_allOnes.symm

/-! ## Which row is selected -/

/-- A priority-1 row of family 0, E or F fixes NN, and fixes it to one of the family's selectors. -/
theorem nn_of_opcodeRows1 : ∀ r ∈ opcodeRows1,
    (opField r.matchBits = 0x0 → nnField r.mask = 0xFF ∧ family0Selectors.contains (nnField r.matchBits) = true) ∧
    (opField r.matchBits = 0xE → nnField r.mask = 0xFF ∧ familyESelectors.contains (nnField r.matchBits) = true) ∧
    (opField r.matchBits = 0xF → nnField r.mask = 0xFF ∧ familyFSelectors.contains (nnField r.matchBits) = true) := by
  decide

/-- A priority-1 row of family 8 fixes N, and fixes it to one of the family's selectors. -/
theorem n_of_opcodeRows1 : ∀ r ∈ opcodeRows1,
    opField r.matchBits = 0x8 → nField r.mask = 0xF ∧ family8Selectors.contains (nField r.matchBits) = true := by
  decide

/-- No priority-1 row selects the word of a well-formed catch-all: it would fix the word's selector to one of those
that a well-formed catch-all does not carry. -/
theorem not_selects_of_isCatchAll {i : Instr} {r : OpcodeRow} (hwf : i.wellFormed = true) (hi : i.isCatchAll = true)
    (hr : r ∈ opcodeRows1) : ¬ r.selects (encode i) = true := by
  intro hs
  have hop := opField_of_selects hr hs
  obtain ⟨h0, hE, hF⟩ := nn_of_opcodeRows1 r hr
  cases i with
  | sys nnn =>
    obtain ⟨hmask, hsel⟩ := h0 (hop.symm.trans (Laws.EncodedFamily.sys nnn))
    rw [← nnField_of_selects hmask hs, encode, nnField_packNNN] at hsel
    simp only [Instr.wellFormed, hsel, Bool.not_true, Bool.false_eq_true] at hwf
  | nop8 x y n =>
    obtain ⟨hmask, hsel⟩ := n_of_opcodeRows1 r hr (hop.symm.trans (Laws.EncodedFamily.nop8 x y n))
    rw [← nField_of_selects hmask hs, encode, nField_packXYN] at hsel
    simp only [Instr.wellFormed, hsel, Bool.not_true, Bool.false_eq_true] at hwf
  | nopE x nn =>
    obtain ⟨hmask, hsel⟩ := hE (hop.symm.trans (Laws.EncodedFamily.nopE x nn))
    rw [← nnField_of_selects hmask hs, encode, nnField_packXNN] at hsel
    simp only [Instr.wellFormed, hsel, Bool.not_true, Bool.false_eq_true] at hwf
  | nopF x nn =>
    obtain ⟨hmask, hsel⟩ := hF (hop.symm.trans (Laws.EncodedFamily.nopF x nn))
    rw [← nnField_of_selects hmask hs, encode, nnField_packXNN] at hsel
    simp only [Instr.wellFormed, hsel, Bool.not_true, Bool.false_eq_true] at hwf
  | _ => cases hi

/-- Two rows that select one word agree on the bits that both fix. -/
theorem matchBits_and_mask_of_selects {r q : OpcodeRow} {w : Word} (hr : r.selects w = true) (hq : q.selects w = true) :
    r.matchBits &&& q.mask = q.matchBits &&& r.mask := by
  rw [← (selects_iff r w).1 hr, ← (selects_iff q w).1 hq, BitVec.and_assoc, BitVec.and_comm r.mask, BitVec.and_assoc]

/-- No two different priority-1 rows select one word: they differ on a bit that both fix. -/
theorem opcodeRows1_unique {r q : OpcodeRow} {w : Word} (hr : r ∈ opcodeRows1) (hq : q ∈ opcodeRows1)
    (hrw : r.selects w = true) (hqw : q.selects w = true) : r = q := by
  have hbits : ∀ r ∈ opcodeRows1, ∀ q ∈ opcodeRows1,
      r.matchBits &&& q.mask = q.matchBits &&& r.mask → r = q := by decide +kernel
  exact hbits r hr q hq (matchBits_and_mask_of_selects hrw hqw)

theorem opcodeRows2_unique {r q : OpcodeRow} {w : Word} (hr : r ∈ opcodeRows2) (hq : q ∈ opcodeRows2)
    (hrw : r.selects w = true) (hqw : q.selects w = true) : r = q := by
  have hbits : ∀ r ∈ opcodeRows2, ∀ q ∈ opcodeRows2,
      r.matchBits &&& q.mask = q.matchBits &&& r.mask → r = q := by decide +kernel
  exact hbits r hr q hq (matchBits_and_mask_of_selects hrw hqw)

theorem find?_eq_some_of_unique {α : Type} {p : α → Bool} {l : List α} {a : α} (ha : a ∈ l) (hp : p a = true)
    (hu : ∀ b ∈ l, p b = true → b = a) : l.find? p = some a := by
  cases h : l.find? p with
  | none => exact absurd hp (List.find?_eq_none.1 h a ha)
  | some b => rw [hu b (List.mem_of_find?_eq_some h) (List.find?_some h)]

/-- The row a word selects is the row of the well-formed instruction it stands for. -/
theorem selectRow_encode {i : Instr} (hwf : i.wellFormed = true) : selectRow (encode i) = some i.row := by
  have hrow := row_selects i
  rw [selectRow, List.find?_append]
  cases hi : i.isCatchAll with
  | false =>
    have hmem := row_mem_opcodeRows1 hi
    rw [find?_eq_some_of_unique hmem hrow fun q hq hs => opcodeRows1_unique hq hmem hs hrow]
    rfl
  | true =>
    have hmem := row_mem_opcodeRows2 hi
    rw [List.find?_eq_none.2 fun q hq => not_selects_of_isCatchAll hwf hi hq, Option.none_or]
    exact find?_eq_some_of_unique hmem hrow fun q hq hs => opcodeRows2_unique hq hmem hs hrow

/-- Settles O3: a word is the word of what it decodes to, whose row it selects. -/
theorem decoderAgreesWithOpcodeMap : Obligations.DecoderAgreesWithOpcodeMap := by
  intro w
  refine ⟨⟨(decodeWord w).row, ?_, rfl⟩, fun r hr q hq => opcodeRows1_unique hr hq⟩
  have hsel := selectRow_encode (decodeWord_wellFormed w)
  rwa [encode_decodeWord] at hsel

/-- Settles O4: each word is the packed form of its instruction's fields, evaluated. -/
theorem sampleWordsDecode : Obligations.SampleWordsDecode := by
  unfold Obligations.SampleWordsDecode
  decide

end Sys2Proof
end

section
/-! SUPPORT. What an instruction does, as one equation per instruction, or per branch of one that stops on a bound: the
equations that the sections before do not state. -/

namespace Sys2Proof.Machine

/-! ## Control (R110 to R114, R182) -/

@[simp] theorem exec_cls (x : Nibble) (s : State) :
    exec (.cls x) s = .next { s with fb := clearScreen, drawFlag := true } := rfl

@[simp] theorem exec_jp (nnn : Imm12) (s : State) : exec (.jp nnn) s = .next { s with pc := addrOf nnn } := rfl

@[simp] theorem exec_jpV0 (nnn : Imm12) (s : State) :
    exec (.jpV0 nnn) s = .next { s with pc := indexedTarget nnn (s.getV 0) } := rfl

theorem exec_call_of_sp_ne (nnn : Imm12) {s : State} (h : s.sp ≠ 15) :
    exec (.call nnn) s = .next { s.pushPc with pc := addrOf nnn } := if_neg h

theorem exec_call_of_sp_eq (nnn : Imm12) {s : State} (h : s.sp = 15) :
    exec (.call nnn) s = .next (s.raise .stackOverflow 15) := by
  simp only [exec, execCall, h, if_true]
  rfl

theorem exec_ret_of_sp_ne (x : Nibble) {s : State} (h : s.sp ≠ 0) : exec (.ret x) s = .next s.popPc := if_neg h

theorem exec_ret_of_sp_eq (x : Nibble) {s : State} (h : s.sp = 0) :
    exec (.ret x) s = .next (s.raise .stackUnderflow 0) := if_pos h

/-! ## Arithmetic (R156 to R160) -/

@[simp] theorem exec_addReg (x y : RegIdx) (s : State) : exec (.addReg x y) s =
    .next (s.setResultAndFlag x (sum8 (s.getV x) (s.getV y)) (carryFlag (s.getV x) (s.getV y))) := rfl

@[simp] theorem exec_sub (x y : RegIdx) (s : State) : exec (.sub x y) s =
    .next (s.setResultAndFlag x (diff8 (s.getV x) (s.getV y)) (noBorrowFlag (s.getV x) (s.getV y))) := rfl

@[simp] theorem exec_subn (x y : RegIdx) (s : State) : exec (.subn x y) s =
    .next (s.setResultAndFlag x (diff8 (s.getV y) (s.getV x)) (noBorrowFlag (s.getV y) (s.getV x))) := rfl

@[simp] theorem exec_shr (x y : RegIdx) (s : State) :
    exec (.shr x y) s = .next (s.setResultAndFlag x (half8 (s.getV x)) (shiftOutRight (s.getV x))) := rfl

@[simp] theorem exec_shl (x y : RegIdx) (s : State) :
    exec (.shl x y) s = .next (s.setResultAndFlag x (double8 (s.getV x)) (shiftOutLeft (s.getV x))) := rfl

/-! ## The random draw and the timers (R183, R230, R232, R233) -/

@[simp] theorem exec_rnd (x : RegIdx) (nn : Byte) (s : State) : exec (.rnd x nn) s =
    .next { s.setV x (Config.rand s.draws &&& nn) with draws := s.draws + 1 } := rfl

@[simp] theorem exec_ldVxDt (x : RegIdx) (s : State) : exec (.ldVxDt x) s = .next (s.setV x s.dt) := rfl

@[simp] theorem exec_ldDtVx (x : RegIdx) (s : State) : exec (.ldDtVx x) s = .next { s with dt := s.getV x } := rfl

@[simp] theorem exec_ldStVx (x : RegIdx) (s : State) : exec (.ldStVx x) s = .next { s with st := s.getV x } := rfl

/-! ## Keys (R220 to R222, R231) -/

theorem exec_skp_of_key {x : RegIdx} {k : Fin 16} {s : State} (h : (s.getV x).toNat = k.val) :
    exec (.skp x) s = .next (s.skipIf s.keypad[k.val]) := by
  simp only [exec, execSkp, keyOf_eq_some (h.trans_lt k.isLt), h]

theorem exec_sknp_of_key {x : RegIdx} {k : Fin 16} {s : State} (h : (s.getV x).toNat = k.val) :
    exec (.sknp x) s = .next (s.skipIf (!s.keypad[k.val])) := by
  simp only [exec, execSknp, keyOf_eq_some (h.trans_lt k.isLt), h]

theorem exec_skp_of_no_key {x : RegIdx} {s : State} (h : 15 < (s.getV x).toNat) :
    exec (.skp x) s = .next (s.raise .keyIndexOutOfRange (s.getV x).toNat) := by
  simp only [exec, execSkp, keyOf_eq_none h]

theorem exec_sknp_of_no_key {x : RegIdx} {s : State} (h : 15 < (s.getV x).toNat) :
    exec (.sknp x) s = .next (s.raise .keyIndexOutOfRange (s.getV x).toNat) := by
  simp only [exec, execSknp, keyOf_eq_none h]

theorem exec_ldVxK_of_pressed (x : RegIdx) {k : Fin 16} {s : State} (h : lowestPressed s.keypad = some k) :
    exec (.ldVxK x) s = .next { s.setV x (trunc8 k.val) with keyWait := false } := by
  simp only [exec, execLdVxK, h]

theorem exec_ldVxK_of_none (x : RegIdx) {s : State} (h : lowestPressed s.keypad = none) :
    exec (.ldVxK x) s = .next { s with pc := s.pc - 2, keyWait := true } := by
  simp only [exec, execLdVxK, h]

end Sys2Proof.Machine
end

section
/-! SUPPORT. What an instruction can leave, said once and for all 38 instructions: a raise, or one of the few shapes a
next state has, with the instructions that have it. The rules of who writes what follow by cases on the shape. -/

namespace Sys2Proof.Machine

/-- The next state of an instruction, by its shape. -/
inductive Effect : Instr → State → State → Prop
  /-- a fault of the kind listed for the instruction, with its cause (R11, R261) -/
  | raise {i s k n} (hk : raisedBy i = some k) (hc : raiseCause s k n) : Effect i s (s.raise k n)
  /-- no effect -/
  | nothing {i s} : Effect i s s
  | skip {i s c} (h : isSkip i = true) : Effect i s (s.skipIf c)
  | setReg {i s x b} (h : regWritten i x = true) : Effect i s (s.setV x b)
  | setRegAndFlag {i s x r f} (h : regWritten i x = true) (hf : regWritten i 15 = true) :
      Effect i s (s.setResultAndFlag x r f)
  | setI {i s a} (h : writesI i = true) : Effect i s { s with i := a }
  | clear {x s} : Effect (.cls x) s { s with fb := clearScreen, drawFlag := true }
  | ret {x s} (h : s.sp ≠ 0) : Effect (.ret x) s s.popPc
  | jump {nnn s} : Effect (.jp nnn) s { s with pc := addrOf nnn }
  | indexedJump {nnn s} : Effect (.jpV0 nnn) s { s with pc := indexedTarget nnn (s.getV 0) }
  | call {nnn s} (h : s.sp ≠ 15) : Effect (.call nnn) s { s.pushPc with pc := addrOf nnn }
  | random {x nn s} :
      Effect (.rnd x nn) s { s.setV x (Config.rand s.draws &&& nn) with draws := s.draws + 1 }
  | draw {x y n s b f} : Effect (.drw x y n) s { s.setV 15 b with fb := f, drawFlag := true }
  | keyTaken {x s b} : Effect (.ldVxK x) s { s.setV x b with keyWait := false }
  | keyAwaited {x s} : Effect (.ldVxK x) s { s with pc := s.pc - 2, keyWait := true }
  | setDelay {x s} : Effect (.ldDtVx x) s { s with dt := s.getV x }
  | setSound {x s} : Effect (.ldStVx x) s { s with st := s.getV x }
  | storeDigits {x s} (h : s.i.toNat + 3 ≤ Config.memSize) :
      Effect (.ldBVx x) s { s with mem := s.mem.copyIn s.i.toNat (bcdDigits (s.getV x)) }
  | storeRegs {x s} (h : s.i.toNat + (x.val + 1) ≤ Config.memSize) :
      Effect (.ldMemVx x) s { s with mem := s.mem.copyIn s.i.toNat (s.regsUpTo x), i := s.iAfterBlock x }
  | loadRegs {x s bs} (h : bs.length = x.val + 1) :
      Effect (.ldVxMem x) s { s with v := fillRegs s.v 0 bs, i := s.iAfterBlock x }

/-- An instruction whose answer is known to be the next state `u` has the effect that `u` has. -/
theorem effect_of_eq {i : Instr} {s t u : State} (hu : exec i s = .next u) (he : exec i s = .next t)
    (h : Effect i s u) : Effect i s t :=
  next_inj (hu.symm.trans he) ▸ h

/-- What an instruction leaves has one of the shapes. -/
theorem effect_of_exec {i : Instr} {s t : State} (he : exec i s = .next t) : Effect i s t := by
  cases i with
  | sys | nop8 | nopE | nopF => exact effect_of_eq rfl he .nothing
  | seImm | sneImm | seReg | sneReg => exact effect_of_eq rfl he (.skip rfl)
  | ldImm | addImm | ldReg | or | and | xor | ldVxDt => exact effect_of_eq rfl he (.setReg (by simp [regWritten]))
  | addReg | sub | shr | subn | shl =>
    exact effect_of_eq rfl he (.setRegAndFlag (by simp [regWritten]) (by simp [regWritten]))
  | ldI | addIVx | ldFVx => exact effect_of_eq rfl he (.setI rfl)
  | cls => exact effect_of_eq rfl he .clear
  | jp => exact effect_of_eq rfl he .jump
  | jpV0 => exact effect_of_eq rfl he .indexedJump
  | rnd => exact effect_of_eq rfl he .random
  | ldDtVx => exact effect_of_eq rfl he .setDelay
  | ldStVx => exact effect_of_eq rfl he .setSound
  | ret x =>
    by_cases h : s.sp = 0
    · exact effect_of_eq (exec_ret_of_sp_eq x h) he (.raise rfl ⟨h, rfl⟩)
    · exact effect_of_eq (exec_ret_of_sp_ne x h) he (.ret h)
  | call nnn =>
    by_cases h : s.sp = 15
    · exact effect_of_eq (exec_call_of_sp_eq nnn h) he (.raise rfl ⟨h, rfl⟩)
    · exact effect_of_eq (exec_call_of_sp_ne nnn h) he (.call h)
  | skp x =>
    rcases Nat.lt_or_ge (s.getV x).toNat 16 with h | h
    · exact effect_of_eq (exec_skp_of_key (k := ⟨_, h⟩) rfl) he (.skip rfl)
    · exact effect_of_eq (exec_skp_of_no_key h) he (.raise rfl ⟨x, rfl, h⟩)
  | sknp x =>
    rcases Nat.lt_or_ge (s.getV x).toNat 16 with h | h
    · exact effect_of_eq (exec_sknp_of_key (k := ⟨_, h⟩) rfl) he (.skip rfl)
    · exact effect_of_eq (exec_sknp_of_no_key h) he (.raise rfl ⟨x, rfl, h⟩)
  | ldVxK x =>
    cases h : lowestPressed s.keypad with
    | some k => exact effect_of_eq (exec_ldVxK_of_pressed x h) he .keyTaken
    | none => exact effect_of_eq (exec_ldVxK_of_none x h) he .keyAwaited
  | drw x y n =>
    by_cases h : n.toNat = 0 ∨ s.i.toNat + n.toNat ≤ Config.memSize
    · exact effect_of_eq (execDrw_inRange x y n h) he .draw
    · exact effect_of_eq (execDrw_outOfRange x y n (by omega) (by omega)) he (.raise rfl rfl)
  | ldBVx x =>
    rcases Nat.lt_or_ge Config.memSize (s.i.toNat + 3) with h | h
    · exact effect_of_eq (execLdBVx_outOfRange x h) he (.raise rfl rfl)
    · exact effect_of_eq (execLdBVx_inRange x h) he (.storeDigits h)
  | ldMemVx x =>
    rcases Nat.lt_or_ge Config.memSize (s.i.toNat + (x.val + 1)) with h | h
    · exact effect_of_eq (execLdMemVx_outOfRange x h) he (.raise rfl rfl)
    · exact effect_of_eq (execLdMemVx_inRange x h) he (.storeRegs h)
  | ldVxMem x =>
    rcases Nat.lt_or_ge Config.memSize (s.i.toNat + (x.val + 1)) with h | h
    · exact effect_of_eq (execLdVxMem_outOfRange x h) he (.raise rfl rfl)
    · exact effect_of_eq (execLdVxMem_inRange x h) he (.loadRegs (by simp))

end Sys2Proof.Machine
end

section
/-! SUPPORT. Who writes what (10_state.md R23 to R36, 20_memory.md section 4, 60_exceptions.md R261): for each part of the
state, the instructions that may change it. Each rule is read off the shape of the instruction's effect. -/

namespace Sys2Proof.Machine

variable {i : Instr} {s t : State}

/-! ## The fault record -/

/-- An instruction leaves the fault record alone, or raises the kind listed for it. -/
theorem Effect.fault (h : Effect i s t) :
    t.fault = s.fault ∨ ∃ k n, raisedBy i = some k ∧ t.fault = some ⟨k, n, s.pc - 2⟩ := by
  cases h with
  | raise hk _ => exact .inr ⟨_, _, hk, rfl⟩
  | skip _ => exact .inl (skipIf_fault _ _)
  | _ => exact .inl rfl

/-! ## The screen -/

theorem Effect.screen (h : Effect i s t) (hcls : ∀ x, i ≠ .cls x) (hdrw : ∀ x y n, i ≠ .drw x y n) :
    t.fb = s.fb ∧ t.drawFlag = s.drawFlag := by
  cases h with
  | clear => exact absurd rfl (hcls _)
  | draw => exact absurd rfl (hdrw _ _ _)
  | skip _ => exact ⟨skipIf_fb _ _, skipIf_drawFlag _ _⟩
  | _ => exact ⟨rfl, rfl⟩

theorem Effect.drawFlag (h : Effect i s t) (hs : s.drawFlag = true) : t.drawFlag = true := by
  cases h with
  | clear | draw => rfl
  | skip _ => exact (skipIf_drawFlag _ _).trans hs
  | _ => exact hs

/-! ## Memory -/

/-- A byte that an instruction changes is one it stores to. -/
theorem Effect.mem (h : Effect i s t) {a : Nat} (ha : t.mem.read a ≠ s.mem.read a) :
    (∃ x, i = .ldBVx x ∧ s.i.toNat ≤ a ∧ a < s.i.toNat + 3 ∧ a < 0x1000) ∨
    (∃ x : RegIdx, i = .ldMemVx x ∧ s.i.toNat ≤ a ∧ a ≤ s.i.toNat + x.val ∧ a < 0x1000) := by
  cases h with
  | @storeDigits x s hr =>
    have hin := mt (read_copyIn_outside s.mem (bcdDigits (s.getV x)) (a := s.i.toNat) (b := a)) ha
    rw [bcdDigits_length] at hin
    rw [memSize_eq] at hr
    exact .inl ⟨x, rfl, by omega, by omega, by omega⟩
  | @storeRegs x s hr =>
    have hin := mt (read_copyIn_outside s.mem (s.regsUpTo x) (a := s.i.toNat) (b := a)) ha
    rw [regsUpTo_length] at hin
    rw [memSize_eq] at hr
    exact .inr ⟨x, rfl, by omega, by omega, by omega⟩
  | skip _ => exact absurd (by rw [skipIf_mem]) ha
  | _ => exact absurd rfl ha

theorem Effect.mem_wf (h : Effect i s t) (hs : s.mem.wf = true) : t.mem.wf = true := by
  cases h with
  | storeDigits hr => exact wf_copyIn _ _ hs hr
  | storeRegs hr => exact wf_copyIn _ _ hs (by rwa [regsUpTo_length])
  | skip _ => rwa [skipIf_mem]
  | _ => exact hs

/-! ## The stack -/

/-- A call writes PC into the slot after SP's; no other instruction writes a slot. -/
theorem Effect.stack (h : Effect i s t) :
    t.stack = s.stack ∨ ((∃ nnn, i = .call nnn) ∧ s.sp ≠ 15 ∧ t.stack = s.stack.set (s.sp + 1).val s.pc) := by
  cases h with
  | call hsp => exact .inr ⟨⟨_, rfl⟩, hsp, rfl⟩
  | skip _ => exact .inl (skipIf_stack _ _)
  | _ => exact .inl rfl

/-- The slot a call writes is not slot 0 (R28). -/
theorem Effect.stack_zero (h : Effect i s t) : t.stack[0] = s.stack[0] := by
  obtain heq | ⟨-, hsp, heq⟩ := h.stack
  · rw [heq]
  · have hslot : (s.sp + 1).val ≠ 0 := by
      rw [← pushPc_sp, pushPc_sp_val hsp]
      omega
    simp only [heq, Vector.getElem_set_ne _ _ hslot]

theorem Effect.sp (h : Effect i s t) (hcall : ∀ nnn, i ≠ .call nnn) (hret : ∀ x, i ≠ .ret x) : t.sp = s.sp := by
  cases h with
  | call _ => exact absurd rfl (hcall _)
  | ret _ => exact absurd rfl (hret _)
  | skip _ => exact skipIf_sp _ _
  | _ => rfl

/-! ## The registers -/

/-- A register that changes is one of those listed. -/
theorem Effect.getV (h : Effect i s t) {r : RegIdx} (hr : t.getV r ≠ s.getV r) : regWritten i r = true := by
  cases h with
  | @setReg _ _ x b hx =>
    have hrx : r = x := by_contra fun hne => hr (getV_setV_ne _ b hne)
    exact hrx ▸ hx
  | @setRegAndFlag _ _ x v f hx hf =>
    by_cases hrf : r = 15
    · exact hrf ▸ hf
    · have hrx : r = x := by_contra fun hne => hr (setResultAndFlag_other _ v f hne hrf)
      exact hrx ▸ hx
  | random => exact decide_eq_true (by_contra fun hne => hr (getV_setV_ne _ _ hne))
  | keyTaken => exact decide_eq_true (by_contra fun hne => hr (getV_setV_ne _ _ hne))
  | draw => exact decide_eq_true (by_contra fun hne => hr (getV_setV_ne _ _ hne))
  | @loadRegs x s bs hlen =>
    refine decide_eq_true (by_contra fun hlt => hr ?_)
    have hout : ¬ (0 ≤ r.val ∧ r.val < 0 + bs.length) := by
      rw [Fin.le_def] at hlt
      omega
    exact (fillRegs_get s.v bs 0 r.val r.isLt).trans (dif_neg hout)
  | skip _ => exact absurd (getV_skipIf _ _ r) hr
  | _ => exact absurd rfl hr

theorem Effect.addressRegister (h : Effect i s t) (hi : writesI i = false) : t.i = s.i := by
  cases h with
  | setI hw => exact absurd (hi.symm.trans hw) (by decide)
  | storeRegs _ | loadRegs _ => cases hi
  | skip _ => exact skipIf_i _ _
  | _ => rfl

theorem Effect.dt (h : Effect i s t) (hi : ∀ x, i ≠ .ldDtVx x) : t.dt = s.dt := by
  cases h with
  | setDelay => exact absurd rfl (hi _)
  | skip _ => exact skipIf_dt _ _
  | _ => rfl

theorem Effect.st (h : Effect i s t) (hi : ∀ x, i ≠ .ldStVx x) : t.st = s.st := by
  cases h with
  | setSound => exact absurd rfl (hi _)
  | skip _ => exact skipIf_st _ _
  | _ => rfl

theorem Effect.keyWait (h : Effect i s t) (hi : ∀ x, i ≠ .ldVxK x) : t.keyWait = s.keyWait := by
  cases h with
  | keyTaken | keyAwaited => exact absurd rfl (hi _)
  | skip _ => exact skipIf_keyWait _ _
  | _ => rfl

theorem Effect.draws (h : Effect i s t) (hi : ∀ x nn, i ≠ .rnd x nn) : t.draws = s.draws := by
  cases h with
  | random => exact absurd rfl (hi _ _)
  | skip _ => exact skipIf_draws _ _
  | _ => rfl

/-! ## The program counter -/

/-- PC after an instruction: left alone, 2 back (a raise, or a key wait that goes on), skipped on, or the target of a
jump, a call, an indexed jump or a return. -/
theorem Effect.pc (h : Effect i s t) :
    t.pc = s.pc ∨ t.pc = s.pc - 2 ∨ (isSkip i = true ∧ t.pc = s.pc + 2) ∨
    (∃ nnn, (i = .jp nnn ∨ i = .call nnn) ∧ t.pc = addrOf nnn) ∨
    (∃ nnn, i = .jpV0 nnn ∧ t.pc = indexedTarget nnn (s.getV 0)) ∨
    (∃ x, i = .ret x ∧ t.pc = s.stack[s.sp.val]) := by
  cases h with
  | raise _ _ | keyAwaited => exact .inr (.inl rfl)
  | @skip _ _ c hskip =>
    cases c with
    | false => exact .inl rfl
    | true => exact .inr (.inr (.inl ⟨hskip, rfl⟩))
  | jump => exact .inr (.inr (.inr (.inl ⟨_, .inl rfl, rfl⟩)))
  | call _ => exact .inr (.inr (.inr (.inl ⟨_, .inr rfl, rfl⟩)))
  | indexedJump => exact .inr (.inr (.inr (.inr (.inl ⟨_, rfl, rfl⟩))))
  | ret _ => exact .inr (.inr (.inr (.inr (.inr ⟨_, rfl, rfl⟩))))
  | _ => exact .inl rfl

end Sys2Proof.Machine
end

section
/-! SUPPORT. The rules of who writes what, of instructions and of steps, and the rules of the step itself (10_state.md,
20_memory.md section 4, 40_step_and_dispatch.md section 1, 60_exceptions.md section 1). -/

namespace Sys2Proof.Machine

/-! ## Instructions -/

/-- Settles O41: an instruction that leaves a record on an unfaulted state has not left the fault record alone. -/
theorem onlyListedInstructionsRaise : Obligations.OnlyListedInstructionsRaise := by
  intro i s t r hs he ht
  obtain hsame | ⟨k, n, hk, hrec⟩ := (effect_of_exec he).fault
  · rw [hsame, hs] at ht
    cases ht
  · rw [hrec] at ht
    cases ht
    exact hk

/-- Settles O47: by the frame of the stack, of SP and of slot 0. -/
theorem onlyCallAndReturnMoveStack : Obligations.OnlyCallAndReturnMoveStack := by
  intro i s t he
  have heff := effect_of_exec he
  refine ⟨fun hcall => ?_, heff.sp, heff.stack_zero⟩
  obtain hsame | ⟨⟨nnn, hi⟩, -⟩ := heff.stack
  · exact hsame
  · exact absurd hi (hcall nnn)

/-- Settles O48: by the frame of the register file. -/
theorem onlyListedRegistersWritten : Obligations.OnlyListedRegistersWritten :=
  fun _ _ _ _ he hr => (effect_of_exec he).getV hr

/-- Settles O49: by the frames of I, the timers, the latch and the draw index. -/
theorem onlyListedInstructionsWriteSpecialRegisters : Obligations.OnlyListedInstructionsWriteSpecialRegisters := by
  intro i s t he
  have heff := effect_of_exec he
  exact ⟨heff.addressRegister, heff.dt, heff.st, heff.keyWait, heff.draws⟩

/-! ## Steps -/

/-- Settles O34: each case of a step, and each case of an instruction, is a next state. -/
theorem stepAlwaysAnswersNext : Obligations.StepAlwaysAnswersNext := by
  refine ⟨fun s => ?_, fun i s => ?_⟩
  · obtain ⟨-, hs⟩ | ⟨-, -, hs⟩ | ⟨-, _, -, -, hs⟩ | ⟨-, _, _, -, -, hs⟩ := step_cases s <;> exact ⟨_, hs⟩
  · obtain ⟨_, he, -⟩ | ⟨_, _, he, -⟩ := exec_cases i s <;> exact ⟨_, he⟩

/-- What a step leaves: the four cases of a step, for the state it answers. -/
theorem step_next_cases {s t : State} (hs : step s = .next t) :
    (s.fault ≠ none ∧ t = s.stuck) ∨
    (s.fault = none ∧ Config.lastFetch < s.pc.toNat ∧ t = s.raiseAt s.pc .pcOutOfRange s.pc.toNat) ∨
    (s.canFetch ∧ ∃ u, Effect (decodeWord s.fetchWord) s.advance u ∧ u.fault = none ∧ t = u.tickTimers) ∨
    (s.canFetch ∧ ∃ k n, raiseCause s k n ∧ t = s.raiseAt s.pc k n) := by
  obtain ⟨hf, he⟩ | ⟨hf, hp, he⟩ | ⟨hc, u, hu, hf, he⟩ | ⟨hc, k, n, -, hk, he⟩ := step_cases s
  · exact .inl ⟨hf, next_inj (hs.symm.trans he)⟩
  · exact .inr (.inl ⟨hf, hp, next_inj (hs.symm.trans he)⟩)
  · exact .inr (.inr (.inl ⟨hc, u, effect_of_exec hu, hf, next_inj (hs.symm.trans he)⟩))
  · exact .inr (.inr (.inr ⟨hc, k, n, hk, next_inj (hs.symm.trans he)⟩))

/-- A step that starts and ends without a fault has run its instruction and ticked the timers. -/
theorem step_next_of_no_fault {s t : State} (hs : step s = .next t) (hf : s.fault = none) (ht : t.fault = none) :
    s.canFetch ∧ ∃ u, Effect (decodeWord s.fetchWord) s.advance u ∧ t = u.tickTimers := by
  obtain ⟨hn, -⟩ | ⟨-, -, rfl⟩ | ⟨hc, u, hu, -, he⟩ | ⟨-, k, n, -, rfl⟩ := step_next_cases hs
  · exact absurd hf hn
  · cases ht
  · exact ⟨hc, u, hu, he⟩
  · cases ht

/-- Settles O45: the first part is the frame of the screen; in a step, what stands around the instruction leaves the
draw-flag alone. -/
theorem onlyClearAndDrawTouchScreen : Obligations.OnlyClearAndDrawTouchScreen := by
  refine ⟨fun i s t he => (effect_of_exec he).screen, fun s t hs hflag => ?_⟩
  obtain ⟨-, rfl⟩ | ⟨-, -, rfl⟩ | ⟨-, u, hu, -, rfl⟩ | ⟨-, k, n, -, rfl⟩ := step_next_cases hs
  · exact hflag
  · exact hflag
  · exact hu.drawFlag hflag
  · exact hflag

/-- Settles O46: by the frame of memory; the advance of PC before the instruction leaves I as it was. -/
theorem onlyStoresWriteMemory : Obligations.OnlyStoresWriteMemory := by
  refine ⟨fun i s t he hbcd hst a => by_contra fun ha => ?_, fun s t hs a ha => ?_⟩
  · obtain ⟨x, hi, -⟩ | ⟨x, hi, -⟩ := (effect_of_exec he).mem ha
    · exact hbcd x hi
    · exact hst x hi
  · obtain ⟨-, rfl⟩ | ⟨-, -, rfl⟩ | ⟨-, u, hu, -, rfl⟩ | ⟨-, k, n, -, rfl⟩ := step_next_cases hs
    · exact absurd rfl ha
    · exact absurd rfl ha
    · exact hu.mem ha
    · exact absurd rfl ha

/-- Settles O35: a faulted machine is stuck. -/
theorem faultedStepChangesNothing : Obligations.FaultedStepChangesNothing := step_of_fault

/-- Settles O36: the fetch raises, at the PC it finds. -/
theorem fetchBeyondMemoryFaults : Obligations.FetchBeyondMemoryFaults := step_of_pc

/-- Settles O40: the record is one of the fetch, or one of the instruction, whose cause its info names. -/
theorem faultsArePrecise : Obligations.FaultsArePrecise := by
  intro s t r hf hs hr
  obtain ⟨hn, -⟩ | ⟨-, hp, rfl⟩ | ⟨-, u, -, hu, rfl⟩ | ⟨hc, k, n, hk, rfl⟩ := step_next_cases hs
  · exact absurd hf hn
  · cases hr
    exact ⟨rfl, by simp [FaultRecord.explains, hp]⟩
  · cases hu.symm.trans hr
  · cases hr
    exact ⟨rfl, explains_of_cause hc hk⟩

/-- Settles O42: the instruction leaves the timers to the tick that ends the step. -/
theorem nonFaultingStepTicksTimers : Obligations.NonFaultingStepTicksTimers := by
  intro s t hf hs ht
  obtain ⟨-, u, hu, rfl⟩ := step_next_of_no_fault hs hf ht
  refine ⟨fun hi => ?_, fun hi => ?_⟩
  · rw [tickTimers_dt, tickDown_toNat, hu.dt hi, advance_dt]
  · rw [tickTimers_st, tickTimers_tone, tickDown_toNat, hu.st hi, advance_st, decide_eq_true_iff,
      ne_zero_iff_toNat_pos]
    exact ⟨rfl, Iff.rfl⟩

/-! ## Where PC leaves the fetchable range -/

/-- PC + 2 does not wrap while a fetch is in range. -/
theorem advance_pc_toNat {s : State} (h : s.pc.toNat ≤ Config.lastFetch) : s.advance.pc.toNat = s.pc.toNat + 2 := by
  rw [lastFetch_eq] at h
  rw [advance_pc, BitVec.toNat_add]
  simp
  omega

theorem addrOf_eq_last {nnn : Imm12} (h : 0xFFE < nnn.toNat) : nnn = 0xFFF := by
  apply BitVec.eq_of_toNat_eq
  have := nnn.isLt
  simp
  omega

/-- Settles O43: by cases on where the instruction leaves PC. -/
theorem pcLeavesMemoryOnlyByListedCases : Obligations.PcLeavesMemoryOnlyByListedCases := by
  intro s t hc hs ht hpc
  obtain ⟨hf, hp⟩ := hc
  have hadv := advance_pc_toNat hp
  rw [lastFetch_eq] at hp
  obtain ⟨-, u, hu, rfl⟩ := step_next_of_no_fault hs hf ht
  rw [tickTimers_pc] at hpc
  obtain he | he | ⟨hi, he⟩ | ⟨nnn, hi, he⟩ | ⟨nnn, hi, he⟩ | ⟨x, hi, he⟩ := hu.pc <;> rw [he] at hpc
  · exact .inl (by omega)
  · rw [advance_pc, BitVec.add_sub_cancel] at hpc
    omega
  · rw [BitVec.toNat_add, hadv] at hpc
    exact .inr (.inl ⟨by simp at hpc; omega, hi⟩)
  · rw [addrOf_toNat] at hpc
    obtain rfl := addrOf_eq_last hpc
    exact .inr (.inr (hi.elim .inl fun hi => .inr (.inl hi)))
  · rw [indexedTarget_toNat] at hpc
    exact .inr (.inr (.inr (.inr (.inl ⟨nnn, hi, hpc⟩))))
  · exact .inr (.inr (.inr (.inr (.inr ⟨x, hi, hpc⟩))))

end Sys2Proof.Machine
end

section
/-! SUPPORT. The step as its decoded instruction, and the steps that raise in their instruction (40_step_and_dispatch.md
section 1, 60_exceptions.md section 1). -/

namespace Sys2Proof.Machine

/-- Settles O33: the decoded instruction is the one the step fetches, so the step is it and then the end of the step. -/
theorem stepRunsDecodedInstruction : Obligations.StepRunsDecodedInstruction := by
  intro s t i hf hp hdec he
  have hi : decodeWord s.fetchWord = i := by
    simp only [decode, Except.ok.injEq, Prod.mk.injEq, and_true] at hdec
    exact hdec
  subst hi
  have hstep : step s = .next t.finishStep := step_of_exec ⟨hf, hp⟩ he
  refine ⟨decodeWord_wellFormed _, fun ht => ?_, fun ht => ?_⟩
  · rw [hstep, finishStep_of_none t ht]
    rfl
  · rw [hstep, finishStep_of_fault t ht]

/-! ## Steps that raise -/

/-- A step whose instruction raises, when the instruction is known. -/
theorem step_of_decoded_raises {s : State} {i : Instr} {k : Fault} {n : Nat} (hc : s.canFetch)
    (hi : decodeWord s.fetchWord = i) (he : exec i s.advance = .next (s.advance.raise k n)) :
    step s = .next { s with fault := some ⟨k, n, s.pc⟩, tone := false } :=
  step_of_raises hc (hi ▸ he)

/-- Settles O37: a call at SP = 15 and a return at SP = 0 raise. -/
theorem stackBoundsFault : Obligations.StackBoundsFault := by
  intro s hc
  exact ⟨fun nnn hi hsp => step_of_decoded_raises hc hi (exec_call_of_sp_eq nnn hsp),
    fun x hi hsp => step_of_decoded_raises hc hi (exec_ret_of_sp_eq x hsp)⟩

/-- Settles O38: each transfer raises when its last byte lies beyond memory. -/
theorem transferBeyondMemoryFaults : Obligations.TransferBeyondMemoryFaults := by
  rintro s t hc rfl
  refine ⟨fun x hi h => ?_, fun x hi h => ?_, fun x hi h => ?_, fun x y n hi hn h => ?_⟩
  · exact step_of_decoded_raises hc hi (execLdBVx_outOfRange x (Nat.succ_lt_succ h))
  · exact step_of_decoded_raises hc hi (execLdMemVx_outOfRange x (Nat.succ_lt_succ h))
  · exact step_of_decoded_raises hc hi (execLdVxMem_outOfRange x (Nat.succ_lt_succ h))
  · exact step_of_decoded_raises hc hi (execDrw_outOfRange x y n (Nat.ne_of_gt hn) h)

/-- Settles O39: both key skips raise on an index above 15. -/
theorem keyIndexAbove15Faults : Obligations.KeyIndexAbove15Faults := by
  rintro x s hc hx (hi | hi)
  · exact step_of_decoded_raises hc hi (exec_skp_of_no_key hx)
  · exact step_of_decoded_raises hc hi (exec_sknp_of_no_key hx)

end Sys2Proof.Machine
end

section
/-! SUPPORT. The invariant `State.inv`, kept by every step and every host action, and the fault that lasts until reset
(60_exceptions.md section 1, 70_reset_and_hazards.md section 1). -/

namespace Sys2Proof.Machine

/-- The part of the invariant that holds of memory, PC and the stack, whether or not a fault is recorded. -/
structure Sound (s : State) : Prop where
  mem : s.mem.wf = true
  pc : s.pc.toNat ≤ 0x10FE
  slots : ∀ k : Fin 16, (s.stack[k.val]).toNat ≤ 0x1000
  slotZero : s.stack[0] = 0

/-- The invariant: that part, and a fault record that explains itself. -/
theorem inv_iff (s : State) : s.inv = true ↔ Sound s ∧ ∀ r, s.fault = some r → r.explains s = true := by
  have hsound : Sound s ↔ (s.mem.wf && decide (s.pc.toNat ≤ 0x10FE) &&
      decide (∀ k : Fin 16, (s.stack[k.val]).toNat ≤ 0x1000) && decide (s.stack[0] = 0)) = true := by
    simp only [Bool.and_eq_true, decide_eq_true_eq]
    exact ⟨fun ⟨hmem, hpc, hslots, hzero⟩ => ⟨⟨⟨hmem, hpc⟩, hslots⟩, hzero⟩,
      fun ⟨⟨⟨hmem, hpc⟩, hslots⟩, hzero⟩ => ⟨hmem, hpc, hslots, hzero⟩⟩
  rw [State.inv, Bool.and_eq_true, ← hsound]
  refine and_congr_right fun _ => ?_
  cases s.fault <;> simp

/-- Without a fault record the invariant is its first part. -/
theorem inv_of_no_fault {s : State} (h : Sound s) (hf : s.fault = none) : s.inv = true :=
  (inv_iff s).2 ⟨h, fun r hr => by rw [hf] at hr; cases hr⟩

/-! ## Instructions -/

/-- PC after an instruction that started at most at 0x1000, with no slot above 0x1000: an indexed jump reaches
furthest, 0xFFF + 0xFF (R92, R182). -/
theorem Effect.pc_le {i : Instr} {s t : State} (h : Effect i s t) (hlo : 2 ≤ s.pc.toNat) (hhi : s.pc.toNat ≤ 0x1000)
    (hslots : ∀ k : Fin 16, (s.stack[k.val]).toNat ≤ 0x1000) : t.pc.toNat ≤ 0x10FE := by
  obtain he | he | ⟨-, he⟩ | ⟨nnn, -, he⟩ | ⟨nnn, -, he⟩ | ⟨x, -, he⟩ := h.pc <;> rw [he]
  · omega
  · rw [BitVec.toNat_sub_of_le (by simpa [BitVec.le_def] using hlo)]
    omega
  · rw [BitVec.toNat_add]
    simp
    omega
  · have := nnn.isLt
    rw [addrOf_toNat]
    omega
  · have := nnn.isLt
    have := (s.getV 0).isLt
    rw [indexedTarget_toNat]
    omega
  · exact (hslots s.sp).trans (by decide)

/-- No slot exceeds 0x1000 after an instruction: the address a call pushes is at most 0x1000 (R92, R114). -/
theorem Effect.slots_le {i : Instr} {s t : State} (h : Effect i s t) (hhi : s.pc.toNat ≤ 0x1000)
    (hslots : ∀ k : Fin 16, (s.stack[k.val]).toNat ≤ 0x1000) (k : Fin 16) : (t.stack[k.val]).toNat ≤ 0x1000 := by
  obtain he | ⟨-, -, he⟩ := h.stack
  · simpa only [he] using hslots k
  · simp only [he, Vector.getElem_set]
    split
    · exact hhi
    · exact hslots k

/-- The instruction of a step that can fetch keeps memory, PC and the stack sound. -/
theorem Effect.sound {i : Instr} {s t : State} (h : Effect i s.advance t) (hc : s.canFetch) (hs : Sound s) :
    Sound t := by
  obtain ⟨hmem, -, hslots, hzero⟩ := hs
  have hadv := advance_pc_toNat hc.2
  have hhi : s.advance.pc.toNat ≤ 0x1000 := hadv.trans_le (Nat.add_le_add_right hc.2 2)
  exact ⟨h.mem_wf hmem, h.pc_le (by omega) hhi hslots, h.slots_le hhi hslots, h.stack_zero.trans hzero⟩

/-! ## Steps -/

/-- A record that explains a state explains every state that agrees with it on what the record speaks of. -/
theorem explains_of_agree {r : FaultRecord} {s t : State} (h : r.explains s = true) (hpc : t.pc = s.pc)
    (hi : t.i = s.i) (hsp : t.sp = s.sp) (hv : t.v = s.v) (htone : t.tone = s.tone) : r.explains t = true := by
  simp only [FaultRecord.explains, hpc, hi, hsp, htone, getV_congr hv] at h ⊢
  exact h

theorem tone_of_explains {r : FaultRecord} {s : State} (h : r.explains s = true) : s.tone = false := by
  simp only [FaultRecord.explains, Bool.and_eq_true, Bool.not_eq_true'] at h
  exact h.1.2

/-- A record set by a step is the one its cause explains; the step leaves the rest of the state sound as it was. -/
theorem inv_raiseAt {s : State} {k : Fault} {n : Nat} (hs : Sound s)
    (hexp : FaultRecord.explains ⟨k, n, s.pc⟩ (s.raiseAt s.pc k n) = true) : (s.raiseAt s.pc k n).inv = true := by
  refine (inv_iff _).2 ⟨⟨hs.mem, hs.pc, hs.slots, hs.slotZero⟩, fun r hr => ?_⟩
  cases hr
  exact hexp

/-- A step keeps the invariant, by its four cases. -/
theorem step_keeps_inv {s t : State} (hinv : s.inv = true) (hs : step s = .next t) : t.inv = true := by
  obtain ⟨hsound, hrec⟩ := (inv_iff s).1 hinv
  obtain ⟨-, rfl⟩ | ⟨hf, hp, rfl⟩ | ⟨hc, u, hu, hf, rfl⟩ | ⟨hc, k, n, hk, rfl⟩ := step_next_cases hs
  · refine (inv_iff _).2 ⟨⟨hsound.mem, hsound.pc, hsound.slots, hsound.slotZero⟩, fun r hr => ?_⟩
    have hexp := hrec r hr
    have htone : s.stuck.tone = s.tone := (tone_of_explains hexp).symm
    exact explains_of_agree hexp rfl rfl rfl rfl htone
  · exact inv_raiseAt hsound (by simp [FaultRecord.explains, hp])
  · obtain ⟨hmem, hpc, hslots, hzero⟩ := hu.sound hc hsound
    exact inv_of_no_fault ⟨hmem, hpc, hslots, hzero⟩ hf
  · exact inv_raiseAt hsound (explains_of_cause hc hk)

/-- Settles O51: by the four cases of a step. -/
theorem stepKeepsInvariant : Obligations.StepKeepsInvariant := fun _ _ => step_keeps_inv

/-! ## Reset and the host -/

theorem reset_sound : Sound State.reset where
  mem := reset_wf
  pc := by decide
  slots k := by
    rw [State.reset, Vector.getElem_replicate]
    decide
  slotZero := Vector.getElem_replicate _

/-- Settles O50: the reset state is sound and records no fault. -/
theorem resetMeetsInvariant : Obligations.ResetMeetsInvariant := inv_of_no_fault reset_sound rfl

/-- What a faulted machine may still see changed: memory, the keypad, the draw-flag and the tone (R292, R275, R91). -/
def FaultFrame (s t : State) : Prop :=
  t = { s with mem := t.mem, keypad := t.keypad, drawFlag := t.drawFlag, tone := t.tone }

theorem FaultFrame.refl (s : State) : FaultFrame s s := rfl

theorem FaultFrame.trans {s t u : State} (hst : FaultFrame s t) (htu : FaultFrame t u) : FaultFrame s u := by
  unfold FaultFrame at *
  rw [htu, hst]

theorem FaultFrame.fault {s t : State} (h : FaultFrame s t) : t.fault = s.fault := by
  rw [h]

/-- The host's load changes memory alone, and leaves it canonical (R292, R293). -/
theorem apply_load (s : State) (bytes : List Byte) :
    ∃ m, (HostAction.load bytes).apply s = { s with mem := m } ∧ (s.mem.wf = true → m.wf = true) := by
  rcases Nat.lt_or_ge Config.maxRom bytes.length with h | h
  · exact ⟨s.mem, apply_load_of_error (load_eq_error s h), id⟩
  · refine ⟨s.mem.copyIn Config.progBase bytes, ?_, fun hs => wf_copyIn s.mem bytes hs (rom_fits h)⟩
    simp only [HostAction.apply, load_eq_ok s h]

/-- The host's actions other than reset. -/
theorem apply_faultFrame {a : HostAction} (h : a ≠ .reset) (s : State) : FaultFrame s (a.apply s) := by
  cases a with
  | reset => exact absurd rfl h
  | load bytes =>
    obtain ⟨m, he, -⟩ := apply_load s bytes
    rw [he]
    rfl
  | setKey k pressed => rfl
  | clearDrawFlag => rfl

/-- A change of the host that leaves the tone alone, and memory canonical, keeps the invariant. -/
theorem inv_of_faultFrame {s t : State} (hinv : s.inv = true) (hframe : FaultFrame s t) (htone : t.tone = s.tone)
    (hmem : t.mem.wf = true) : t.inv = true := by
  obtain ⟨hsound, hrec⟩ := (inv_iff s).1 hinv
  rw [hframe] at htone hmem ⊢
  refine (inv_iff _).2 ⟨⟨hmem, hsound.pc, hsound.slots, hsound.slotZero⟩, fun r hr => ?_⟩
  exact explains_of_agree (hrec r hr) rfl rfl rfl rfl htone

/-- Every action of the host keeps the invariant. -/
theorem apply_keeps_inv {s : State} (a : HostAction) (hinv : s.inv = true) : (a.apply s).inv = true := by
  have hmem : s.mem.wf = true := ((inv_iff s).1 hinv).1.mem
  cases a with
  | reset => exact inv_of_no_fault ⟨reset_sound.mem, reset_sound.pc, reset_sound.slots, reset_sound.slotZero⟩ rfl
  | load bytes =>
    have hframe := apply_faultFrame (a := .load bytes) (by simp) s
    obtain ⟨m, he, hwf⟩ := apply_load s bytes
    rw [he] at hframe ⊢
    exact inv_of_faultFrame hinv hframe rfl (hwf hmem)
  | setKey k pressed => exact inv_of_faultFrame hinv rfl rfl hmem
  | clearDrawFlag => exact inv_of_faultFrame hinv rfl rfl hmem

/-! ## Runs -/

theorem runEvents_step {s u : State} (h : step s = .next u) (es : List Event) :
    runEvents (.step :: es) s = runEvents es u := by
  simp only [runEvents, h]

/-- Settles O52: by induction on the events, each of which answers a next state and keeps the invariant. -/
theorem runsKeepInvariant : Obligations.RunsKeepInvariant := by
  intro es
  induction es with
  | nil => exact fun s hinv => ⟨s, rfl, hinv⟩
  | cons e es ih =>
    intro s hinv
    cases e with
    | host a => exact ih (a.apply s) (apply_keeps_inv a hinv)
    | step =>
      obtain ⟨u, hu⟩ := stepAlwaysAnswersNext.1 s
      rw [runEvents_step hu]
      exact ih u (step_keeps_inv hinv hu)

/-- A run without reset from a faulted machine, by induction on the events: a step is stuck, and no other action of the
host clears the record. -/
theorem run_faultFrame {es : List Event} {s t : State} (hf : s.fault ≠ none) (hes : Event.host .reset ∉ es)
    (hrun : runEvents es s = .next t) : FaultFrame s t := by
  induction es generalizing s with
  | nil =>
    obtain rfl := next_inj hrun
    exact .refl s
  | cons e es ih =>
    rw [List.mem_cons, not_or] at hes
    obtain ⟨he, hes⟩ := hes
    cases e with
    | host a =>
      have hframe := apply_faultFrame (fun ha => he (ha ▸ rfl)) s
      exact hframe.trans (ih (hframe.fault ▸ hf) hes hrun)
    | step =>
      rw [runEvents_step (step_of_fault s hf)] at hrun
      have hframe : FaultFrame s s.stuck := rfl
      exact hframe.trans (ih hf hes hrun)

/-- Settles O53: the run leaves all but four fields as they were, the record among those it leaves. -/
theorem faultLastsUntilReset : Obligations.FaultLastsUntilReset := by
  intro es s t hf hes hrun
  have hframe := run_faultFrame hf hes hrun
  exact ⟨hframe.fault, hframe⟩

theorem font_getD_eq_ite (a : Nat) : Config.font.getD a 0 = if a < 80 then Config.font.getD a 0 else 0 := by
  split
  · rfl
  · next h => exact List.getD_eq_default _ _ (Nat.le_of_not_lt h)

/-- Settles O54: every field of the reset state; memory lists nothing, so that it reads as the font and 0 elsewhere. -/
theorem resetState : Obligations.ResetState := by
  intro s
  refine ⟨fun a => (reset_read a).trans (font_getD_eq_ite a), fun r => Vector.getElem_replicate _, rfl, rfl,
    fun k => Vector.getElem_replicate _, rfl, rfl, rfl, fun px py => ?_, fun k => Vector.getElem_replicate _, rfl, rfl,
    rfl, rfl⟩
  simp only [State.hostReset, State.reset, Framebuffer.cell, Vector.getElem_replicate]

end Sys2Proof.Machine
end

section
/-! SUPPORT. What the instructions of families 0, 1, 2 and B, the arithmetic of family 8, the draw of CXNN and the timer
transfers do (41_family0_1_2_control.md, 43_family8_alu.md, 44_family9_to_C_misc.md, 47_familyF_timers_memory.md). -/

namespace Sys2Proof

theorem decodeWord_of_family1 {w : Word} (hop : w.toNat / 4096 = 0x1) : decodeWord w = .jp (nnnField w) := by
  simp only [decodeWord, opField_toNat, hop]

theorem decodeFamily0_eq_cls {w : Word} (hnn : w.toNat % 256 = 0xE0) : decodeFamily0 w = .cls (xBits w) := by
  simp only [decodeFamily0, nnField_toNat, hnn]

end Sys2Proof

namespace Sys2Proof.Machine

/-! ## Control -/

theorem clearScreen_cell (x : Fin 64) (y : Fin 32) : Framebuffer.cell clearScreen x y = false := by
  simp only [Framebuffer.cell, clearScreen, Vector.getElem_replicate]

/-- Settles O5: every cell of the screen CLS writes is 0. -/
theorem clearScreenZeroesEveryCell : Obligations.ClearScreenZeroesEveryCell := by
  refine ⟨fun w hop hnn => ?_, fun x s => ⟨_, exec_cls x s, clearScreen_cell, rfl, rfl, fun _ => rfl⟩⟩
  rw [decodeWord_of_family0 hop, decodeFamily0_eq_cls hnn]

theorem withPc_onlyPc (s : State) (a : Word) : OnlyPc s { s with pc := a } := ⟨rfl, fun _ => rfl⟩

theorem fetchOutOfRange_iff (s : State) : s.fetchOutOfRange = true ↔ 0xFFE < s.pc.toNat := by
  rw [State.fetchOutOfRange, decide_eq_true_iff, lastFetch_eq, gt_iff_lt]

/-- Settles O7: NNN has 12 bits, so that the one target beyond the fetch bound is 0xFFF. -/
theorem jumpSetsPc : Obligations.JumpSetsPc := by
  refine ⟨fun w => decodeWord_of_family1, fun nnn s => ⟨_, exec_jp nnn s, addrOf_toNat nnn, ?_, withPc_onlyPc s _⟩⟩
  have := nnn.isLt
  rw [fetchOutOfRange_iff, addrOf_toNat]
  omega

/-- Settles O8: the target of an indexed jump does not wrap. -/
theorem indexedJumpAddsV0 : Obligations.IndexedJumpAddsV0 := by
  intro nnn s
  refine ⟨_, exec_jpV0 nnn s, indexedTarget_toNat nnn _, ?_, withPc_onlyPc s _⟩
  rw [fetchOutOfRange_iff, indexedTarget_toNat]

/-- A push writes the slot that SP names after it. -/
theorem pushPc_slot (s : State) : s.pushPc.stack[s.pushPc.sp.val] = s.pc := Vector.getElem_set_self _

/-- A push leaves every other slot. -/
theorem pushPc_slot_ne {s : State} {k : Fin 16} (h : k ≠ s.pushPc.sp) : s.pushPc.stack[k.val] = s.stack[k.val] :=
  Vector.getElem_set_ne (s.sp + 1).isLt k.isLt fun he => h (Fin.ext he.symm)

/-- Settles O9: a call is a push and a jump. -/
theorem callPushesReturnAddress : Obligations.CallPushesReturnAddress := by
  intro nnn s hsp
  exact ⟨_, exec_call_of_sp_ne nnn hsp, pushPc_sp_val hsp, pushPc_slot s, addrOf_toNat nnn,
    fun _ hk => pushPc_slot_ne hk, rfl, fun _ => rfl⟩

/-- Settles O10: a return is a pop. -/
theorem returnPopsReturnAddress : Obligations.ReturnPopsReturnAddress := by
  intro x s hsp
  exact ⟨_, exec_ret_of_sp_ne x hsp, rfl, popPc_sp_val hsp, rfl, fun _ => rfl⟩

/-- A pop straight after a push, with PC set in between, undoes all of it but the slot written. -/
theorem popPc_pushPc (s : State) (a : Word) :
    ({ s.pushPc with pc := a } : State).popPc = { s with stack := s.pushPc.stack } := by
  simp [State.popPc, State.pushPc]

theorem pushPc_sp_ne_zero {s : State} (h : s.sp ≠ 15) : s.pushPc.sp ≠ 0 := by
  intro hzero
  have hval := pushPc_sp_val h
  rw [hzero] at hval
  exact absurd hval (by simp)

/-- Settles O11: the return pops what the call pushed; the one slot written lies above the old SP. -/
theorem returnUndoesCall : Obligations.ReturnUndoesCall := by
  intro nnn x s hsp
  have hret : exec (.ret x) { s.pushPc with pc := addrOf nnn } = .next { s with stack := s.pushPc.stack } := by
    rw [exec_ret_of_sp_ne (s := { s.pushPc with pc := addrOf nnn }) x (pushPc_sp_ne_zero hsp), popPc_pushPc]
  refine ⟨_, _, exec_call_of_sp_ne nnn hsp, hret, rfl, rfl, fun k hk => pushPc_slot_ne fun h => ?_, rfl⟩
  have hval := pushPc_sp_val hsp
  rw [Fin.le_def, h] at hk
  omega

/-! ## Arithmetic with a flag -/

theorem diff8_toNat (a b : Byte) : (diff8 a b).toNat = (a.toNat + 256 - b.toNat) % 256 := trunc8_toNat _

theorem double8_toNat (a : Byte) : (double8 a).toNat = a.toNat * 2 % 256 := trunc8_toNat _

theorem half8_toNat (a : Byte) : (half8 a).toNat = a.toNat / 2 := by
  have := a.isLt
  rw [half8, trunc8_toNat]
  omega

theorem shiftOutRight_eq (a : Byte) : shiftOutRight a = a.getLsbD 0 := by
  rw [shiftOutRight, ← BitVec.testBit_toNat, Nat.testBit_zero]

theorem shiftOutLeft_eq (a : Byte) : shiftOutLeft a = a.getLsbD 7 := by
  rw [shiftOutLeft, ← BitVec.testBit_toNat, Nat.testBit_eq_decide_div_mod_eq]

/-- What the arithmetic of family 8 leaves: the result in V[X] unless X is F, and the flag in VF. -/
theorem setResultAndFlag_spec (s : State) (x : RegIdx) (r : Byte) (f : Bool) :
    (x ≠ 15 → ((s.setResultAndFlag x r f).getV x).toNat = r.toNat) ∧
    ((s.setResultAndFlag x r f).getV 15).toNat = (if f = true then 1 else 0) ∧
    OnlyRegAndFlag x s (s.setResultAndFlag x r f) := by
  refine ⟨fun hx => ?_, ?_, setResultAndFlag_onlyRegAndFlag s x r f⟩
  · rw [setResultAndFlag_result s r f hx]
  · rw [setResultAndFlag_vf, flagByte_toNat]

/-- Settles O16: the result is the sum and the flag the carry. -/
theorem addSetsCarry : Obligations.AddSetsCarry := by
  intro x y s
  have hspec := setResultAndFlag_spec s x (sum8 (s.getV x) (s.getV y)) (carryFlag (s.getV x) (s.getV y))
  simp only [sum8_toNat, carryFlag, decide_eq_true_iff] at hspec
  exact ⟨_, exec_addReg x y s, hspec⟩

/-- Settles O17: the result is the difference and the flag no-borrow, with the operands exchanged in 8XY7. -/
theorem subtractsSetNoBorrow : Obligations.SubtractsSetNoBorrow := by
  refine fun x y s => ⟨⟨_, exec_sub x y s, ?_⟩, ⟨_, exec_subn x y s, ?_⟩⟩
  · have hspec := setResultAndFlag_spec s x (diff8 (s.getV x) (s.getV y)) (noBorrowFlag (s.getV x) (s.getV y))
    simpa only [diff8_toNat, noBorrowFlag, decide_eq_true_iff] using hspec
  · have hspec := setResultAndFlag_spec s x (diff8 (s.getV y) (s.getV x)) (noBorrowFlag (s.getV y) (s.getV x))
    simpa only [diff8_toNat, noBorrowFlag, decide_eq_true_iff] using hspec

/-- Settles O18: the result is the shift and the flag the bit it moves out. -/
theorem shiftsSetShiftedOutBit : Obligations.ShiftsSetShiftedOutBit := by
  refine fun x y s => ⟨⟨_, exec_shr x y s, ?_⟩, ⟨_, exec_shl x y s, ?_⟩⟩
  · have hspec := setResultAndFlag_spec s x (half8 (s.getV x)) (shiftOutRight (s.getV x))
    simpa only [half8_toNat, shiftOutRight_eq] using hspec
  · have hspec := setResultAndFlag_spec s x (double8 (s.getV x)) (shiftOutLeft (s.getV x))
    simpa only [double8_toNat, shiftOutLeft_eq] using hspec

theorem carryFlag_comm (a b : Byte) : carryFlag a b = carryFlag b a := by
  rw [carryFlag, carryFlag, Nat.add_comm]

/-- Of the two differences of a pair at least one has no borrow, and both have none exactly when the pair is equal. -/
theorem noBorrowFlag_add (a b : Byte) :
    a ≠ b ↔ (flagByte (noBorrowFlag a b)).toNat + (flagByte (noBorrowFlag b a)).toNat = 1 := by
  simp only [flagByte_toNat, noBorrowFlag, decide_eq_true_iff, ne_eq, ← BitVec.toNat_inj]
  split <;> split <;> omega

/-- Settles O19: VF is the flag, the carry is symmetric, and the two no-borrow flags add up to 1 or are both 1. -/
theorem carrySymmetricBorrowsComplementary : Obligations.CarrySymmetricBorrowsComplementary := by
  intro x y s
  refine ⟨_, _, _, _, exec_addReg x y s, exec_addReg y x s, ?_, exec_sub x y s, exec_subn x y s, ?_, fun h => ?_⟩
  · rw [setResultAndFlag_vf, setResultAndFlag_vf, carryFlag_comm]
  · rw [setResultAndFlag_vf, setResultAndFlag_vf]
    exact noBorrowFlag_add _ _
  · have hself : noBorrowFlag (s.getV y) (s.getV y) = true := decide_eq_true (Nat.le_refl _)
    rw [setResultAndFlag_vf, setResultAndFlag_vf, h, hself]
    exact ⟨rfl, rfl⟩

/-! ## The random draw and the timers -/

/-- Settles O21: a bit of the masked draw is 0 where the mask's is. -/
theorem randomIsMaskedDraw : Obligations.RandomIsMaskedDraw := by
  intro x nn s
  have hx : (s.setV x (Config.rand s.draws &&& nn)).getV x = Config.rand s.draws &&& nn := getV_setV_same s x _
  refine ⟨_, exec_rnd x nn s, hx, fun k hk => ?_, rfl, rfl, fun r hr => getV_setV_ne s _ hr, fun _ => rfl⟩
  refine (congrArg (BitVec.getLsbD · k) hx).trans ?_
  simp only [BitVec.getLsbD_and, hk, Bool.and_false]

/-- Settles O22: each is one write. -/
theorem timerTransfers : Obligations.TimerTransfers := by
  intro x s
  exact ⟨⟨_, exec_ldVxDt x s, getV_setV_same s x _, setV_onlyReg s x _⟩,
    ⟨_, exec_ldDtVx x s, rfl, rfl, fun _ => rfl⟩, ⟨_, exec_ldStVx x s, rfl, rfl, fun _ => rfl⟩⟩

/-- A step whose instruction is known and leaves the fault record alone. -/
theorem step_of_decoded_runs {s t : State} {i : Instr} (hc : s.canFetch) (hi : decodeWord s.fetchWord = i)
    (he : exec i s.advance = .next t) (ht : t.fault = s.fault) : step s = .next t.tickTimers :=
  step_of_runs hc (hi ▸ he) (ht.trans hc.1)

/-- Settles O23: the tick that ends the step finds the timer as the instruction left it. -/
theorem timerWrittenIsTickedInSameStep : Obligations.TimerWrittenIsTickedInSameStep := by
  intro x s hc
  refine ⟨fun hi => ?_, fun hi => ?_, fun hi => ?_⟩
  · exact ⟨_, step_of_decoded_runs hc hi (exec_ldDtVx x _) rfl, tickDown_toNat _⟩
  · refine ⟨_, step_of_decoded_runs hc hi (exec_ldStVx x _) rfl, tickDown_toNat _, ?_⟩
    rw [tickTimers_tone, decide_eq_true_iff, ne_zero_iff_toNat_pos]
    exact Iff.rfl
  · exact ⟨_, step_of_decoded_runs hc hi (exec_ldVxDt x _) rfl, getV_setV_same _ x _, tickDown_toNat _⟩

/-! ## Keys -/

/-- Settles O26: both are a skip, on the key and on its negation. -/
theorem keySkips : Obligations.KeySkips := by
  intro x k s hk
  refine ⟨⟨_, exec_skp_of_key hk, skipIf_onlyPc s _, skipIf_pc_toNat s _⟩,
    ⟨_, exec_sknp_of_key hk, skipIf_onlyPc s _, ?_⟩⟩
  rw [skipIf_pc_toNat]
  cases s.keypad[k.val] <;> rfl

/-- PC stepped back by 2, as a number. -/
theorem sub_two_toNat (a : Word) : (a - 2).toNat = (a.toNat + 65534) % 65536 := by
  rw [BitVec.toNat_sub, Nat.add_comm]
  rfl

/-- Settles O27: with a key pressed, the least one is taken; with none, PC steps back. -/
theorem keyWaitTakesLeastKey : Obligations.KeyWaitTakesLeastKey := by
  refine fun x s => ⟨fun k hk hleast => ?_, fun hnone => ?_⟩
  · have hx : ((s.setV x (trunc8 k.val)).getV x).toNat = k.val := by
      rw [getV_setV_same, trunc8_toNat]
      exact Nat.mod_eq_of_lt (k.isLt.trans (by decide))
    exact ⟨_, exec_ldVxK_of_pressed x (lowestPressed_some _ k hk hleast), hx, rfl, rfl,
      fun r hr => getV_setV_ne s _ hr, fun _ => rfl⟩
  · exact ⟨_, exec_ldVxK_of_none x ((lowestPressed_none _).2 hnone), sub_two_toNat _, rfl, rfl, fun _ => rfl⟩

/-- Settles O28: the step back of PC undoes the advance, so that the next step fetches the same two bytes. -/
theorem keyWaitBlocksWhileTimersRun : Obligations.KeyWaitBlocksWhileTimersRun := by
  intro x s hc hi hnone
  have hpc : s.advance.pc - 2 = s.pc := BitVec.add_sub_cancel s.pc 2
  have he : exec (.ldVxK x) s.advance = .next { s with keyWait := true } := by
    rw [exec_ldVxK_of_none (s := s.advance) x ((lowestPressed_none _).2 hnone), hpc]
    rfl
  refine ⟨_, step_of_decoded_runs hc hi he rfl, rfl, rfl, rfl, tickDown_toNat _, tickDown_toNat _, ?_, rfl⟩
  rw [tickTimers_tone, decide_eq_true_iff, ne_zero_iff_toNat_pos]

end Sys2Proof.Machine
end

section
/-! SUPPORT. A draw whose bytes lie in memory (45_familyD_sprite.md R200 to R207), once and twice. -/

namespace Sys2Proof.Machine

/-! ## One draw -/

theorem sprite_length_le (s : State) (n : Nibble) : (s.sprite n.toNat).length ≤ 32 := by
  have := n.isLt
  rw [State.sprite, List.length_map, List.length_range']
  omega

/-- The sprite a draw reads toggles the cells that `State.spriteCovers` names, and no other. -/
theorem drawSprite_cell (s : State) (x y : RegIdx) (n : Nibble) (px : Fin 64) (py : Fin 32) :
    (s.spriteCovers x y n.toNat px py →
      (drawSprite s.fb (s.getV x).toNat (s.getV y).toNat (s.sprite n.toNat)).1.cell px py = !s.fb.cell px py) ∧
    (¬ s.spriteCovers x y n.toNat px py →
      (drawSprite s.fb (s.getV x).toNat (s.getV y).toNat (s.sprite n.toNat)).1.cell px py = s.fb.cell px py) := by
  rw [← rowsHit_iff_spriteCovers]
  exact drawRows_cell _ _ 0 (s.sprite n.toNat) (s.fb, false) (sprite_length_le s n) px py

/-- Its collision flag is 1 exactly when one of those cells was 1. -/
theorem drawSprite_collision (s : State) (x y : RegIdx) (n : Nibble) :
    (drawSprite s.fb (s.getV x).toNat (s.getV y).toNat (s.sprite n.toNat)).2 = true ↔
      ∃ px py, s.spriteCovers x y n.toNat px py ∧ s.fb.cell px py = true := by
  have hrows := drawRows_collision ((s.getV x).toNat % 64) ((s.getV y).toNat % 32) 0 (s.sprite n.toNat) (s.fb, false)
    (sprite_length_le s n)
  simpa only [drawSprite, Bool.false_eq_true, false_or, State.sprite, rowsHit_iff_spriteCovers] using hrows

/-- Settles O24: the next state of a draw in range has the framebuffer and the flag of the sprite drawn. -/
theorem drawTogglesExactlyCoveredCells : Obligations.DrawTogglesExactlyCoveredCells := by
  intro x y n s hrange
  have hflag := drawSprite_collision s x y n
  refine ⟨_, execDrw_inRange x y n hrange, drawSprite_cell s x y n, fun hhit => ?_, fun hmiss => ?_, rfl,
    fun r hr => getV_setV_ne s _ hr, fun _ => rfl⟩
  · refine (getV_setV_same s 15 _).trans ?_
    rw [hflag.2 hhit]
    rfl
  · refine (getV_setV_same s 15 _).trans ?_
    rw [Bool.eq_false_iff.2 (mt hflag.1 hmiss)]
    rfl

/-! ## Two draws -/

/-- The cells covered depend on the sprite's bytes and on the position only. -/
theorem spriteCovers_congr {s t : State} {x y : RegIdx} (hmem : t.mem = s.mem) (hi : t.i = s.i)
    (hx : (t.getV x).toNat % 64 = (s.getV x).toNat % 64) (hy : (t.getV y).toNat % 32 = (s.getV y).toNat % 32)
    (n : Nat) (px : Fin 64) (py : Fin 32) : t.spriteCovers x y n px py ↔ s.spriteCovers x y n px py := by
  simp only [State.spriteCovers, State.spriteByte, hmem, hi, hx, hy]

/-- Settles O25: the second draw covers the same cells, so that it toggles back what the first toggled; it finds a
covered cell 1 exactly when the first found it 0. -/
theorem drawTwiceRestoresScreen : Obligations.DrawTwiceRestoresScreen := by
  intro x y n s t hrange he hx hy
  obtain ⟨t', he', hcells, -, -, hframe, -, -⟩ := drawTogglesExactlyCoveredCells x y n s hrange
  obtain rfl := next_inj (he.symm.trans he')
  have hmem : t.mem = s.mem := by rw [hframe]
  have hi : t.i = s.i := by rw [hframe]
  have hcov := spriteCovers_congr hmem hi hx hy n.toNat
  obtain ⟨u, hu, hcells', hhit, hmiss, -⟩ := drawTogglesExactlyCoveredCells x y n t (hi ▸ hrange)
  simp only [hcov] at hcells' hhit hmiss
  refine ⟨u, hu, framebuffer_ext fun px py => ?_, fun hvf px py hc => ?_, fun hall => hmiss ?_⟩
  · by_cases hc : s.spriteCovers x y n.toNat px py
    · rw [(hcells' px py).1 hc, (hcells px py).1 hc, Bool.not_not]
    · rw [(hcells' px py).2 hc, (hcells px py).2 hc]
  · by_contra hcell
    have hset : t.fb.cell px py = true := by
      rw [(hcells px py).1 hc, Bool.eq_false_iff.2 hcell, Bool.not_false]
    rw [hhit ⟨px, py, hc, hset⟩] at hvf
    exact absurd hvf (by decide)
  · rintro ⟨px, py, hc, hset⟩
    rw [(hcells px py).1 hc, hall px py hc] at hset
    exact absurd hset (by decide)

end Sys2Proof.Machine
end

section
/-! SUPPORT. The three block transfers whose bytes lie in memory (47_familyF_timers_memory.md R236 to R238, 20_memory.md
section 4). -/

namespace Sys2Proof.Machine

/-- Settles O29: the digits are copied in at I, and read back there. -/
theorem bcdStoresThreeDigits : Obligations.BcdStoresThreeDigits := by
  intro x s hwf hrange
  have hfit : s.i.toNat + (bcdDigits (s.getV x)).length ≤ Config.memSize := Nat.succ_le_succ hrange
  have hread : ∀ k (hk : k < 3), (s.mem.copyIn s.i.toNat (bcdDigits (s.getV x))).read (s.i.toNat + k) =
      (bcdDigits (s.getV x))[k] := fun k hk => read_copyIn s.mem _ hwf hfit hk
  have := (s.getV x).isLt
  refine ⟨_, execLdBVx_inRange x hfit, ?_, ?_, ?_, fun b hb => read_copyIn_outside s.mem _ hb, rfl⟩
  · refine (congrArg BitVec.toNat (hread 0 (by decide))).trans ((trunc8_toNat _).trans ?_)
    omega
  · refine (congrArg BitVec.toNat (hread 1 (by decide))).trans ((trunc8_toNat _).trans ?_)
    omega
  · refine (congrArg BitVec.toNat (hread 2 (by decide))).trans ((trunc8_toNat _).trans ?_)
    omega

/-- The bytes of V[0] to V[X] read back from where they are copied in. -/
theorem read_copyIn_regsUpTo {s : State} {x k : RegIdx} (hwf : s.mem.wf = true)
    (hfit : s.i.toNat + (x.val + 1) ≤ Config.memSize) (hk : k ≤ x) :
    (s.mem.copyIn s.i.toNat (s.regsUpTo x)).read (s.i.toNat + k.val) = s.getV k := by
  have hlen := regsUpTo_length s x
  have hlt : k.val < (s.regsUpTo x).length := by
    rw [hlen]
    exact Nat.lt_succ_of_le hk
  rw [read_copyIn s.mem _ hwf (hlen ▸ hfit) hlt, regsUpTo_get]

/-- Settles O30: the registers are copied in at I. -/
theorem storeRegistersToMemory : Obligations.StoreRegistersToMemory := by
  intro x s hwf hrange
  have hfit : s.i.toNat + (x.val + 1) ≤ Config.memSize := Nat.succ_le_succ hrange
  refine ⟨_, execLdMemVx_inRange x hfit, fun k hk => read_copyIn_regsUpTo hwf hfit hk, fun b hb => ?_,
    iAfterBlock_toNat x hfit, rfl⟩
  exact read_copyIn_outside s.mem _ (by rwa [regsUpTo_length])

/-- Settles O31: the bytes at I fill the registers up to X. -/
theorem loadRegistersFromMemory : Obligations.LoadRegistersFromMemory := by
  intro x s hrange
  have hfit : s.i.toNat + (x.val + 1) ≤ Config.memSize := Nat.succ_le_succ hrange
  refine ⟨_, execLdVxMem_inRange x hfit, fun k hk => ?_, fun k hk => ?_, iAfterBlock_toNat x hfit, rfl, fun _ => rfl⟩
  · exact (getV_fillRegs s s.mem _ _ k).trans (if_pos (Nat.lt_succ_of_le hk))
  · exact (getV_fillRegs s s.mem _ _ k).trans (if_neg (Nat.not_lt.2 (Nat.succ_le_of_lt hk)))

/-- Settles O32: the load reads the bytes the store wrote, and both leave I past the same block. -/
theorem loadAfterStoreGivesRegistersBack : Obligations.LoadAfterStoreGivesRegistersBack := by
  intro x s v' hwf hrange
  obtain ⟨t, hst, hbytes, -, hti, -⟩ := storeRegistersToMemory x s hwf hrange
  obtain ⟨u, hld, hregs, -, hui, hframe, -⟩ := loadRegistersFromMemory x { t with i := s.i, v := v' } hrange
  refine ⟨t, u, hst, hld, fun k hk => (hregs k hk).trans (hbytes k hk), ?_, BitVec.eq_of_toNat_eq (hui.trans hti.symm)⟩
  rw [hframe]

end Sys2Proof.Machine
end
